-- ==== Sys2Proof/Word.lean ====
section
/-!
DEFINITION. The widths of the block's values: 32-bit registers and command words, 8-bit units,
30-bit polymod values (rules R12, R13, R31, R102).
-/

namespace Sys2Proof

/-- A register of the block and a command word (R12, R13, R50). -/
abbrev Word := BitVec 32

/-- One unit of a buffer: a raw byte, a character code, or a 5-bit group in the low five bits (R31). -/
abbrev Byte := BitVec 8

/-- A polymod accumulator or checksum constant (R18, R102). -/
abbrev Poly := BitVec 30

end Sys2Proof
end

