-- ==== Sys2Proof/Config.lean ====
section
/-!
DEFINITION. What the spec leaves open: the parameter CAP (R6, D6) and the free values for contents
and reads the spec calls unspecified (R22, R37, R185). None of the opaque constants has a body, so
no proof can learn a value of one.
-/

namespace Sys2Proof

/-- The choice behind CAP. DESIGN CHOICE, safe: log 4. -/
opaque Config.capDraw : Nat

/-- CAP, the greatest number of units an input buffer may hold: OPEN in the spec (R6, D6) with
128 ≤ CAP < 2^28. Every number in that range is the value of this expression for some draw. -/
def Config.cap : Nat := Config.capDraw % (2 ^ 28 - 128) + 128

/-- The content of an input unit that the host has not written since the last reset (R22: "holding
any value until written"), given the number of resets so far, the buffer (0 for IN_A, 1 for IN_B)
and the index. DESIGN CHOICE, safe: log 5. -/
opaque Config.freeUnit (epoch buffer index : Nat) : Byte

/-- What a host read of an output unit gives where the spec gives it no value (R37, R185): a fresh
value at each draw. DESIGN CHOICE, safe: log 6. -/
opaque Config.freeByte (draw : Nat) : Byte

/-- What a host read of a response register gives while BUSY = 1 (R185: "unspecified values (any
value ...)"): a fresh value at each draw. DESIGN CHOICE, safe: log 7. -/
opaque Config.freeWord (draw : Nat) : Word

end Sys2Proof
end

