-- ==== Sys2Proof/Syntax.lean ====
section
/-!
DEFINITION. The operations as syntax: one constructor of Instr per row of spec/opcode_table.json
(R52), with the fields of the command word the operation uses.
-/

namespace Sys2Proof

/-- The checksum variant (R53): A = original, "Bech32"; B = modified, "Bech32m". -/
inductive Variant where
  | a
  | b
  deriving DecidableEq, Repr

/-- The eleven operations (R52). -/
inductive Instr where
  /-- CSFWD (R80): charset forward mapping of ARG. -/
  | csfwd (arg : BitVec 8)
  /-- CSINV (R81): charset reverse mapping of ARG. -/
  | csinv (arg : BitVec 8)
  /-- CONVERT (R90): PAD, FROM_BITS, TO_BITS. -/
  | convert (pad : Bool) (fromBits toBits : BitVec 4)
  /-- EXPAND (R105). -/
  | expand
  /-- POLYMOD (R106). -/
  | polymod
  /-- CKCREATE (R107): the variant to produce. -/
  | ckcreate (var : Variant)
  /-- CKVERIFY (R108). -/
  | ckverify
  /-- ENCODE (R120): the variant to produce. -/
  | encode (var : Variant)
  /-- DECODE (R130). -/
  | decode
  /-- ENCODEB (R122): the variant to produce. -/
  | encodeb (var : Variant)
  /-- DECODEB (R132): the expected variant. -/
  | decodeb (var : Variant)
  deriving DecidableEq, Repr

end Sys2Proof
end

