-- ==== Sys2Proof/WellFormed.lean ====
section
/-!
DEFINITION. The check on an operation's fields that its mask does not make: the widths of CONVERT
are 1 to 8 (R54, R56 item 4). Every other field admits every value of its width (R55: for CSFWD an
ARG above 31 is no illegal command, it raises OperandOutOfDomain).
-/

namespace Sys2Proof

/-- A legal unit width of CONVERT (R54): 1 to 8. -/
def legalWidth (n : BitVec 4) : Bool :=
  1 ≤ n.toNat && n.toNat ≤ 8

/-- The operation's fields are legal (R54, R56 item 4). -/
def Instr.wellFormed : Instr → Bool
  | .csfwd _ => true
  | .csinv _ => true
  | .convert _ fromBits toBits => legalWidth fromBits && legalWidth toBits
  | .expand => true
  | .polymod => true
  | .ckcreate _ => true
  | .ckverify => true
  | .encode _ => true
  | .decode => true
  | .encodeb _ => true
  | .decodeb _ => true

end Sys2Proof
end

