-- ==== Sys2Proof/Decode.lean ====
section
/-!
DEFINITION. Reading a command word (R51, R52, R56 items 1 to 3, R58) and, after it, writing one.
The decoder is total: every 32-bit word selects exactly one operation or is rejected by name. The
widths of CONVERT are no part of its mask (R52: "CONVERT has one more condition than its mask
shows"): Instr.wellFormed holds that condition and the meaning tests it (R56 item 4). DEDUCED,
safe: log 13.
-/

namespace Sys2Proof

/-- Why a word selects no operation (R56 items 1 to 3). -/
inductive Reject where
  /-- OP is 0x0 or 0xC to 0xF (R56 item 1). -/
  | reservedOpcode
  /-- CMD[15:14] or CMD[31:24] is not 0 (R56 item 2). -/
  | reservedBits
  /-- A field the operation does not use is not 0 (R56 item 3). -/
  | unusedField
  deriving DecidableEq, Repr

/-- OP, bits 3:0 (R51). -/
def opField (w : Word) : BitVec 4 := w.extractLsb' 0 4

/-- VARIANT, bit 4 (R51, R53): 0 is variant A, 1 is variant B. -/
def variantField (w : Word) : Variant := if w.getLsbD 4 then .b else .a

/-- PAD, bit 5 (R51, R54). -/
def padField (w : Word) : Bool := w.getLsbD 5

/-- FROM_BITS, bits 9:6 (R51, R54). -/
def fromField (w : Word) : BitVec 4 := w.extractLsb' 6 4

/-- TO_BITS, bits 13:10 (R51, R54). -/
def toField (w : Word) : BitVec 4 := w.extractLsb' 10 4

/-- ARG, bits 23:16 (R51, R55). -/
def argField (w : Word) : BitVec 8 := w.extractLsb' 16 8

/-- The reserved bits 15:14 and 31:24 are all 0 (R51, R56 item 2). -/
def reservedZero (w : Word) : Bool := w &&& 0xFF00C000 == 0

/-- One row of the opcode map (R52): the word selects the operation iff the bits under the mask are
the row's. -/
def selectRow (w mask pattern : Word) (i : Instr) : Except Reject Instr :=
  if w &&& mask = pattern then .ok i else .error .unusedField

/-- The operation a command word selects (R52, R58). -/
def decodeCommand (w : Word) : Except Reject Instr :=
  if reservedZero w then
    match (opField w).toNat with
    | 1 => selectRow w 0xFF00FFFF 0x00000001 (.csfwd (argField w))
    | 2 => selectRow w 0xFF00FFFF 0x00000002 (.csinv (argField w))
    | 3 => selectRow w 0xFFFFC01F 0x00000003 (.convert (padField w) (fromField w) (toField w))
    | 4 => selectRow w 0xFFFFFFFF 0x00000004 .expand
    | 5 => selectRow w 0xFFFFFFFF 0x00000005 .polymod
    | 6 => selectRow w 0xFFFFFFEF 0x00000006 (.ckcreate (variantField w))
    | 7 => selectRow w 0xFFFFFFFF 0x00000007 .ckverify
    | 8 => selectRow w 0xFFFFFFEF 0x00000008 (.encode (variantField w))
    | 9 => selectRow w 0xFFFFFFFF 0x00000009 .decode
    | 10 => selectRow w 0xFFFFFFEF 0x0000000A (.encodeb (variantField w))
    | 11 => selectRow w 0xFFFFFFEF 0x0000000B (.decodeb (variantField w))
    | _ => .error .reservedOpcode
  else .error .reservedBits

/-- A command is one word and is written to the register CMD whole (R50), so the table's bit i is
CMD's bit i and there is no byte order. Safe: log 17. -/
def commandWord (nbits w : Nat) : Word := BitVec.ofNat 32 (w % 2 ^ nbits)

/-- The operation the decoder reads from a word numbered as spec/opcode_table.json numbers it. -/
def decodeTableWord (nbits w : Nat) : Option Instr :=
  match decodeCommand (commandWord nbits w) with
  | .ok i => some i
  | .error _ => none

/-- The code of a variant in VARIANT and VAR_OUT (R53): true is 1, variant B. -/
def Variant.bit : Variant → Bool
  | .a => false
  | .b => true

/-- A command word from its fields (R51); the reserved bits are 0. -/
def packCommand (op : BitVec 4) (var pad : Bool) (fromBits toBits : BitVec 4) (arg : BitVec 8) : Word :=
  0#8 ++ arg ++ 0#2 ++ toBits ++ fromBits ++ BitVec.ofBool pad ++ BitVec.ofBool var ++ op

/-- The command word of an operation: its OP, the fields it uses, every other field 0 (R51, R52). -/
def encodeCommand : Instr → Word
  | .csfwd arg => packCommand 0x1 false false 0 0 arg
  | .csinv arg => packCommand 0x2 false false 0 0 arg
  | .convert pad fromBits toBits => packCommand 0x3 false pad fromBits toBits 0
  | .expand => packCommand 0x4 false false 0 0 0
  | .polymod => packCommand 0x5 false false 0 0 0
  | .ckcreate var => packCommand 0x6 var.bit false 0 0 0
  | .ckverify => packCommand 0x7 false false 0 0 0
  | .encode var => packCommand 0x8 var.bit false 0 0 0
  | .decode => packCommand 0x9 false false 0 0 0
  | .encodeb var => packCommand 0xA var.bit false 0 0 0
  | .decodeb var => packCommand 0xB var.bit false 0 0 0

end Sys2Proof
end

