-- ==== Sys2Proof/Machine/State.lean ====
section
/-!
DEFINITION. The state of the block and of the host beside it, as plain data (R12, R13, R30), the
events the host can cause (R12, R13, R35, R180), the reasons a step stops, and the state after
reset (R22).
-/

namespace Sys2Proof.Machine

/-- The written units of one buffer: pairs of an index and a unit, indices strictly rising. An index
that is not listed has no value of its own (R22, R37). -/
abbrev Memory := List Host.Cell

/-- The registers the host can read (R12: the command registers are "readable"; R13, R35). -/
inductive Reg where
  | cmd
  | lenA
  | lenB
  | rsp
  | errPos
  | result
  | lenOA
  | lenOB
  | busy
  deriving DecidableEq, Repr

/-- The registers that are read-only to the host (R13). -/
inductive ResponseReg where
  | rsp
  | errPos
  | result
  | lenOA
  | lenOB
  | busy
  deriving DecidableEq, Repr

/-- What the world outside the block can do to it, one act at a time (R35: "nothing else is
reachable"). DESIGN CHOICE, safe: log 1. -/
inductive HostEvent where
  /-- Write CMD, which issues the operation (R12, R14). -/
  | writeCmd (w : Word)
  /-- Write LEN_A (R12). -/
  | writeLenA (n : Word)
  /-- Write LEN_B (R12). -/
  | writeLenB (n : Word)
  /-- Write one unit of IN_A (R30, R33). -/
  | writeInA (index : Nat) (unit : Byte)
  /-- Write one unit of IN_B (R30, R33). -/
  | writeInB (index : Nat) (unit : Byte)
  /-- Write a response register or BUSY, which is ignored (R13). -/
  | writeResponse (r : ResponseReg) (value : Word)
  /-- Read a register (R12, R13). -/
  | readReg (r : Reg)
  /-- Read one unit of OUT_A (R30, R33). -/
  | readOutA (index : Nat)
  /-- Read one unit of OUT_B (R30, R33). -/
  | readOutB (index : Nat)
  /-- Do nothing until BUSY = 0: the engine takes its step where it has one (R14, R185). -/
  | wait
  /-- Reset the block (R180). -/
  | reset
  deriving DecidableEq, Repr

/-- Why a step stops. Both are acts of the host; no operation of the block stops. -/
inductive Fault where
  /-- Raised by the host-event operations: a host write of CMD, LEN_A, LEN_B, IN_A or IN_B while
  BUSY = 1 (R182: "must not"; D22: "the model has no step for a host that breaks them"). Safe: the
  machine stops where a block might go on (log 8). -/
  | hostWriteWhileBusy
  /-- Raised by the host-event operations: an access to a buffer index at or above the buffer's
  capacity (R30), which does not exist. Safe: the machine stops (log 9). -/
  | noSuchUnit
  deriving DecidableEq, Repr

/-- Why an operation has no meaning. -/
inductive Refusal where
  /-- Raised by exec's arm of an operation not yet modelled; no arm raises it now. Safe: the machine
  stops. -/
  | notModelled (mnemonic : String)
  deriving DecidableEq, Repr

/-- Everything the spec gives the block (R12, R13, R30), then the model's own four fields. -/
structure State where
  /-- CMD, the command word (R12). -/
  cmd : Word
  /-- LEN_A, the number of valid units in IN_A (R12). -/
  lenA : Word
  /-- LEN_B, the number of valid units in IN_B (R12). -/
  lenB : Word
  /-- RSP: STATUS in bits 3:0, VAR_OUT in bit 4, 0 above (R13). -/
  rsp : Word
  /-- ERR_POS (R13, R169). -/
  errPos : Word
  /-- RESULT (R13). -/
  result : Word
  /-- LEN_OA, the number of valid units in OUT_A (R13). -/
  lenOA : Word
  /-- LEN_OB, the number of valid units in OUT_B (R13). -/
  lenOB : Word
  /-- BUSY (R13, R14). -/
  busy : Bool
  /-- IN_A: the units the host has written since the last reset (R30, R22). -/
  inA : Memory
  /-- IN_B: the units the host has written since the last reset (R30, R22). -/
  inB : Memory
  /-- OUT_A: the valid units of the last response (R30, R37). -/
  outA : Memory
  /-- OUT_B: the valid units of the last response (R30, R37). -/
  outB : Memory
  /-- The model's own: what the host's last read returned (log 11). -/
  hostData : Word
  /-- The model's own: how many resets have happened since State.reset (log 5). -/
  epoch : Nat
  /-- The model's own: how many free values host reads have drawn (log 7). -/
  draws : Nat
  /-- The model's own: what the host does next, first act first (log 1). -/
  inputs : List HostEvent
  deriving DecidableEq, Repr

/-- The machine right after reset (R22): every register 0, idle, no unit of any buffer written. The
model's own fields start at 0 and empty: DESIGN CHOICE, logs 1, 5, 7, 11. -/
def State.reset : State where
  cmd := 0
  lenA := 0
  lenB := 0
  rsp := 0
  errPos := 0
  result := 0
  lenOA := 0
  lenOB := 0
  busy := false
  inA := []
  inB := []
  outA := []
  outB := []
  hostData := 0
  epoch := 0
  draws := 0
  inputs := []

end Sys2Proof.Machine
end

