-- ==== Sys2Proof/Machine/Flags.lean ====
section
/-!
DEFINITION. The flag-like state (R15): the STATUS codes of the error kinds (R151), how RSP packs
STATUS and VAR_OUT (R13), and the accessors that read them back; the two ways an operation ends
(R8: raise, return).
-/

namespace Sys2Proof.Machine

/-- The fifteen error kinds (R151), each with the rule that gives its cause. -/
inductive ErrorKind where
  /-- R152 -/
  | prefixEmpty
  /-- R153 -/
  | prefixTooLong
  /-- R154 -/
  | stringTooShort
  /-- R155 -/
  | stringTooLong
  /-- R156 -/
  | invalidCharacterCode
  /-- R157 -/
  | mixedCase
  /-- R158 -/
  | missingSeparator
  /-- R159 -/
  | dataPartTooShort
  /-- R160 -/
  | unknownCharacter
  /-- R161 -/
  | checksumInvalid
  /-- R162 -/
  | bitValueExceedsWidth
  /-- R163 -/
  | invalidPadding
  /-- R164 -/
  | variantOrPrefixMismatch
  /-- R165 -/
  | illegalCommand
  /-- R166 -/
  | operandOutOfDomain
  deriving DecidableEq, Repr

/-- STATUS of an operation that returned (R151). -/
def statusOk : BitVec 4 := 0

/-- STATUS of an error kind (R151). -/
def ErrorKind.code : ErrorKind → BitVec 4
  | .prefixEmpty => 1
  | .prefixTooLong => 2
  | .stringTooShort => 3
  | .stringTooLong => 4
  | .invalidCharacterCode => 5
  | .mixedCase => 6
  | .missingSeparator => 7
  | .dataPartTooShort => 8
  | .unknownCharacter => 9
  | .checksumInvalid => 10
  | .bitValueExceedsWidth => 11
  | .invalidPadding => 12
  | .variantOrPrefixMismatch => 13
  | .illegalCommand => 14
  | .operandOutOfDomain => 15

/-- An operation that reached `raise <Kind>(pos)` (R8). -/
structure Raise where
  kind : ErrorKind
  pos : Nat
  deriving DecidableEq, Repr

/-- What an operation that returned delivers (R13, R43): VAR_OUT, RESULT[29:0] and the two output
sequences; what it does not name is 0 or empty. -/
structure Reply where
  var : Variant := .a
  result : Poly := 0
  outA : List Byte := []
  outB : List Byte := []
  deriving DecidableEq, Repr

/-- RSP from STATUS and VAR_OUT, bits 31:5 being 0 (R13). -/
def packRsp (status : BitVec 4) (varOut : Bool) : Word :=
  0#27 ++ BitVec.ofBool varOut ++ status

/-- STATUS, RSP[3:0] (R13). -/
def State.status (s : State) : BitVec 4 := s.rsp.extractLsb' 0 4

/-- VAR_OUT, RSP[4] (R13). -/
def State.varOut (s : State) : Bool := s.rsp.getLsbD 4

end Sys2Proof.Machine
end

