-- ==== Sys2Proof/Machine/Ops.lean ====
section
/-!
DEFINITION. The named operations over buffers and registers: reading and writing a unit, delivering a
response, taking an error (the failure response of R168, the block's only "exception entry"; R170:
there is nothing to return from), issuing, resetting, and every act of the host.
-/

namespace Sys2Proof.Machine

/-- The canonical form of a buffer's units: indices strictly rising. -/
def Memory.wf : Memory → Bool
  | [] => true
  | [_] => true
  | c :: d :: rest => decide (c.1 < d.1) && Memory.wf (d :: rest)

/-- The unit at an index, none where no unit is listed (R33: a read has no side effect). -/
def Memory.read : Memory → Nat → Option Byte
  | [], _ => none
  | c :: rest, i => if c.1 = i then some c.2 else Memory.read rest i

/-- Set the unit at an index (R33: one unit, no other effect). -/
def Memory.write : Memory → Nat → Byte → Memory
  | [], i, v => [(i, v)]
  | c :: rest, i, v =>
    if i < c.1 then (i, v) :: c :: rest
    else if c.1 = i then (i, v) :: rest
    else c :: Memory.write rest i v

/-- A sequence laid out from an index on (R32: the first element at the lowest index). -/
def Memory.fromIndex : Nat → List Byte → Memory
  | _, [] => []
  | i, v :: vs => (i, v) :: Memory.fromIndex (i + 1) vs

/-- The buffer that holds exactly a whole sequence, as outputs are written (R8, R36); what it held
before is gone, so every unit beyond the sequence has no value (R37). -/
def Memory.ofUnits (units : List Byte) : Memory := Memory.fromIndex 0 units

/-- Write the whole response at completion (R13, R14, R36): the five registers, the output buffers,
BUSY ← 0. -/
def State.respond (s : State) (status : BitVec 4) (varOut : Bool) (pos result : Word)
    (outA outB : List Byte) : State :=
  { s with
    rsp := packRsp status varOut
    errPos := pos
    result := result
    lenOA := BitVec.ofNat 32 outA.length
    lenOB := BitVec.ofNat 32 outB.length
    outA := Memory.ofUnits outA
    outB := Memory.ofUnits outB
    busy := false }

/-- The failure response (R168, R169): the kind's code, the position, everything else 0, no units. -/
def State.fail (s : State) (e : Raise) : State :=
  s.respond e.kind.code false (BitVec.ofNat 32 e.pos) 0 [] []

/-- The response of an operation that returned (R13, R43): STATUS = Ok, ERR_POS = 0. -/
def State.succeed (s : State) (r : Reply) : State :=
  s.respond statusOk r.var.bit 0 (r.result.setWidth 32) r.outA r.outB

/-- How an operation ends: with exactly one error kind or with its full result (R150). -/
def State.finish (s : State) : Except Raise Reply → State
  | .error e => s.fail e
  | .ok r => s.succeed r

/-- What an illegal command raises (R56, R165). -/
def illegalCommand : Raise := ⟨.illegalCommand, 0⟩

/-- Issue (R12, R14): CMD takes the word, the operation is in flight. The lengths are sampled as they
stand; nothing can write them before completion (R182), so no copies are kept. DEDUCED, safe: log 3. -/
def State.issue (s : State) (w : Word) : State := { s with cmd := w, busy := true }

/-- The reset event (R180): every register takes its reset value, the operation in flight is dropped,
buffer contents become unspecified. The host's coming acts and its last read value are no state of
the block and stay (log 12). -/
def State.resetEvent (s : State) : State :=
  { State.reset with
    hostData := s.hostData
    epoch := s.epoch + 1
    draws := s.draws
    inputs := s.inputs }

/-- Capacity of an output buffer OUT_A (R30). -/
def outACapacity : Nat := 8 * Config.cap + 8

/-- A host write that is allowed only while BUSY = 0 (R12, R30, R182). -/
def State.whileIdle (s t : State) : Host.Outcome State Fault Refusal :=
  if s.busy then .fault .hostWriteWhileBusy else .next t

/-- A host access to one unit, which must exist (R30). -/
def withinCapacity (index capacity : Nat) (r : Host.Outcome State Fault Refusal) :
    Host.Outcome State Fault Refusal :=
  if index < capacity then r else .fault .noSuchUnit

/-- The value of a register as the block holds it, zero-extended to 32 bits (R12, R13). -/
def State.regValue (s : State) : Reg → Word
  | .cmd => s.cmd
  | .lenA => s.lenA
  | .lenB => s.lenB
  | .rsp => s.rsp
  | .errPos => s.errPos
  | .result => s.result
  | .lenOA => s.lenOA
  | .lenOB => s.lenOB
  | .busy => (BitVec.ofBool s.busy).setWidth 32

/-- The registers that hold the last response, unspecified to a reader while BUSY = 1 (R185). -/
def Reg.isResponse : Reg → Bool
  | .cmd => false
  | .lenA => false
  | .lenB => false
  | .rsp => true
  | .errPos => true
  | .result => true
  | .lenOA => true
  | .lenOB => true
  | .busy => false

/-- The host receives a value. -/
def State.latch (s : State) (v : Word) : State := { s with hostData := v }

/-- The host receives a free value: the draw is spent. -/
def State.latchFree (s : State) (v : Word) : State := { s with hostData := v, draws := s.draws + 1 }

/-- A host read of a register (R12, R13, R185). -/
def State.readReg (s : State) (r : Reg) : State :=
  if s.busy && r.isResponse then s.latchFree (Config.freeWord s.draws) else s.latch (s.regValue r)

/-- A host read of one output unit: its value while BUSY = 0 and the unit is valid (R30, R36), else
a free value (R37, R185). -/
def State.readOut (s : State) (m : Memory) (index : Nat) : State :=
  match s.busy, m.read index with
  | false, some v => s.latch (v.setWidth 32)
  | _, _ => s.latchFree ((Config.freeByte s.draws).setWidth 32)

/-- One act of the host (R12, R13, R30, R35, R180, R182, R185); `wait` is the engine's turn and is not
handled here. -/
def State.hostAct (s : State) : HostEvent → Host.Outcome State Fault Refusal
  | .writeCmd w => s.whileIdle (s.issue w)
  | .writeLenA n => s.whileIdle { s with lenA := n }
  | .writeLenB n => s.whileIdle { s with lenB := n }
  | .writeInA i v => withinCapacity i Config.cap (s.whileIdle { s with inA := s.inA.write i v })
  | .writeInB i v => withinCapacity i Config.cap (s.whileIdle { s with inB := s.inB.write i v })
  | .writeResponse _ _ => .next s
  | .readReg r => .next (s.readReg r)
  | .readOutA i => withinCapacity i outACapacity (.next (s.readOut s.outA i))
  | .readOutB i => withinCapacity i Config.cap (.next (s.readOut s.outB i))
  | .wait => .next s
  | .reset => .next s.resetEvent

end Sys2Proof.Machine
end

