-- ==== Sys2Proof/Machine/Operands.lean ====
section
/-!
DEFINITION. The operand forms of the operations (R42, R43): none, IN_A, or IN_A and IN_B, each a whole
sequence of valid units, with the length test of R56 item 5 before any unit is read; and the domain
test of the operations that take 5-bit groups (R166).
-/

namespace Sys2Proof.Machine

/-- IN_A[i] (R8 MemRead): the unit the host wrote last, or a free value that stays the same until the
next reset (R22, R33; log 5). -/
def State.unitA (s : State) (i : Nat) : Byte := (s.inA.read i).getD (Config.freeUnit s.epoch 0 i)

/-- IN_B[i] (R8 MemRead), as IN_A[i]. -/
def State.unitB (s : State) (i : Nat) : Byte := (s.inB.read i).getD (Config.freeUnit s.epoch 1 i)

/-- IN_A[0..LEN_A-1], index 0 first (R30, R32, R33). -/
def State.unitsA (s : State) : List Byte := (List.range s.lenA.toNat).map s.unitA

/-- IN_B[0..LEN_B-1], index 0 first (R30, R32, R33). -/
def State.unitsB (s : State) : List Byte := (List.range s.lenB.toNat).map s.unitB

/-- Complete an operation that reads no buffer (R43): the lengths are ignored. -/
def completeNone (s : State) (r : Except Raise Reply) : Host.Outcome State Fault Refusal :=
  .next (s.finish r)

/-- Complete an operation that reads IN_A (R43): illegal if LEN_A > CAP (R56 item 5). -/
def completeA (s : State) (f : List Byte → Except Raise Reply) : Host.Outcome State Fault Refusal :=
  if s.lenA.toNat ≤ Config.cap then .next (s.finish (f s.unitsA)) else .next (s.fail illegalCommand)

/-- Complete an operation that reads IN_A and IN_B (R43): illegal if a length is above CAP (R56 item
5). -/
def completeAB (s : State) (f : List Byte → List Byte → Except Raise Reply) :
    Host.Outcome State Fault Refusal :=
  if s.lenA.toNat ≤ Config.cap ∧ s.lenB.toNat ≤ Config.cap then
    .next (s.finish (f s.unitsA s.unitsB))
  else .next (s.fail illegalCommand)

/-- The index, counted from the first argument, of the first unit above 31 (R166). -/
def firstAbove31 : Nat → List Byte → Option Nat
  | _, [] => none
  | i, v :: vs => if 31 < v.toNat then some i else firstAbove31 (i + 1) vs

/-- The domain test of an operation that takes 5-bit groups: OperandOutOfDomain at the first unit
above 31 (R166), else the rest of the operation's rule. -/
def checkGroups (groups : List Byte) (rest : Except Raise Reply) : Except Raise Reply :=
  match firstAbove31 0 groups with
  | some k => .error ⟨.operandOutOfDomain, k⟩
  | none => rest

end Sys2Proof.Machine
end

