-- ==== Sys2Proof/Machine/Tables.lean ====
section
/-!
DEFINITION. The constant tables (R16, R17, R18): read-only, untouched by reset, written here as the
rules print them.
-/

namespace Sys2Proof.Machine

/-- CHARSET (R16): the code of symbol 0 to 31. -/
def charset : List Byte :=
  [0x71, 0x70, 0x7A, 0x72, 0x79, 0x39, 0x78, 0x38,
   0x67, 0x66, 0x32, 0x74, 0x76, 0x64, 0x77, 0x30,
   0x73, 0x33, 0x6A, 0x6E, 0x35, 0x34, 0x6B, 0x68,
   0x63, 0x65, 0x36, 0x6D, 0x75, 0x61, 0x37, 0x6C]

/-- CHARSET_REV's entry for a character outside the alphabet (R17). -/
def revInvalid : Byte := 0xFF

/-- Rows 0x40/0x50 of CHARSET_REV, which rows 0x60/0x70 repeat (R17). -/
def charsetRevLetters : List Byte :=
  [0xFF, 0x1D, 0xFF, 0x18, 0x0D, 0x19, 0x09, 0x08, 0x17, 0xFF, 0x12, 0x16, 0x1F, 0x1B, 0x13, 0xFF,
   0x01, 0x00, 0x03, 0x10, 0x0B, 0x1C, 0x0C, 0x0E, 0x06, 0x04, 0x02, 0xFF, 0xFF, 0xFF, 0xFF, 0xFF]

/-- CHARSET_REV (R17): the value of code 0 to 127, or 0xFF. -/
def charsetRev : List Byte :=
  List.replicate 48 revInvalid
    ++ [0x0F, 0xFF, 0x0A, 0x11, 0x15, 0x14, 0x1A, 0x1E, 0x07, 0x05, 0xFF, 0xFF, 0xFF, 0xFF, 0xFF, 0xFF]
    ++ charsetRevLetters ++ charsetRevLetters

/-- CHARSET[v] for a 5-bit value, taken from the low five bits (R16, R80). -/
def symbolOf (v : Byte) : Byte := charset.getD (v.toNat % 32) 0

/-- The inverse look-up of an 8-bit code: CHARSET_REV below 128, invalid from 128 on (R17, R81). -/
def valueOf (c : Byte) : Byte :=
  if c.toNat ≤ 127 then charsetRev.getD c.toNat revInvalid else revInvalid

/-- GEN[0..4] (R18). -/
def gen : List Poly := [0x3b6a57b2, 0x26508e6d, 0x1ea119fa, 0x3d4233dd, 0x2a1462b3]

/-- CONST, indexed by the variant (R18, R53). -/
def constOf : Variant → Poly
  | .a => 0x00000001
  | .b => 0x2bc830a3

end Sys2Proof.Machine
end

