-- ==== Sys2Proof/Machine/Charset.lean ====
section
/-!
DEFINITION. The charset mapper operations CSFWD and CSINV (R80, R81).
-/

namespace Sys2Proof.Machine

/-- R80's pseudocode. -/
def csfwdReply (arg : Byte) : Except Raise Reply :=
  if 31 < arg.toNat then .error ⟨.operandOutOfDomain, 0⟩ else .ok { outA := [symbolOf arg] }

/-- R81's pseudocode: "invalid" is a result, not an error. -/
def csinvReply (arg : Byte) : Except Raise Reply := .ok { outA := [valueOf arg] }

/-- CSFWD (R80). -/
def execCsfwd (arg : BitVec 8) (s : State) : Host.Outcome State Fault Refusal :=
  completeNone s (csfwdReply arg)

/-- CSINV (R81). -/
def execCsinv (arg : BitVec 8) (s : State) : Host.Outcome State Fault Refusal :=
  completeNone s (csinvReply arg)

end Sys2Proof.Machine
end

