-- ==== Sys2Proof/Machine/Checksum.lean ====
section
/-!
DEFINITION. The checksum engine: expand, polymod, createChecksum, verifyChecksum (R101 to R104) and
the operations EXPAND, POLYMOD, CKCREATE, CKVERIFY (R105 to R108).
-/

namespace Sys2Proof.Machine

/-- expand (R101): bits 6:5 of each character, a 0, bits 4:0 of each character. -/
def expand (hrp : List Byte) : List Byte :=
  hrp.map (fun c : Byte => (c &&& 0x7F) >>> 5) ++ [0] ++ hrp.map (fun c : Byte => c &&& 0x1F)

/-- R102's inner loop over GEN from index `i` on: XOR each constant whose bit of `top` is set. -/
def xorGen (top : BitVec 5) : (i : Nat) → List Poly → Poly → Poly
  | _, [], chk => chk
  | i, g :: gs, chk => xorGen top (i + 1) gs (if top.getLsbD i then chk ^^^ g else chk)

/-- R102's step for one value. -/
def polymodStep (chk : Poly) (value : Byte) : Poly :=
  xorGen (chk.extractLsb' 25 5) 0 gen (((chk &&& 0x1FFFFFF) <<< 5) ||| value.setWidth 30)

/-- polymod (R102): the values folded in index order from 1. -/
def polymod (values : List Byte) : Poly := values.foldl polymodStep 1

/-- The six 5-bit groups of a 30-bit value, most significant first (R103). -/
def splitGroups (m : Poly) : List Byte :=
  [25, 20, 15, 10, 5, 0].map (fun k => (m.extractLsb' k 5).setWidth 8)

/-- createChecksum (R103). -/
def createChecksum (var : Variant) (hrp values : List Byte) : List Byte :=
  splitGroups (polymod (expand hrp ++ values ++ [0, 0, 0, 0, 0, 0]) ^^^ constOf var)

/-- verifyChecksum (R104): the matched variant, none where the checksum is invalid. -/
def verifyChecksum (hrp values : List Byte) : Option Variant :=
  let m := polymod (expand hrp ++ values)
  if m = constOf .a then some .a
  else if m = constOf .b then some .b
  else none

/-- R105's pseudocode. -/
def expandReply (hrp : List Byte) : Except Raise Reply := .ok { outA := expand hrp }

/-- R106's pseudocode. -/
def polymodReply (values : List Byte) : Except Raise Reply :=
  checkGroups values (.ok { result := polymod values })

/-- R107's pseudocode. -/
def ckcreateReply (var : Variant) (hrp values : List Byte) : Except Raise Reply :=
  checkGroups values (.ok { outA := createChecksum var hrp values })

/-- R108's pseudocode. -/
def ckverifyReply (hrp values : List Byte) : Except Raise Reply :=
  checkGroups values
    (match verifyChecksum hrp values with
     | none => .error ⟨.checksumInvalid, 0⟩
     | some var => .ok { var := var })

/-- EXPAND (R105). -/
def execExpand (s : State) : Host.Outcome State Fault Refusal := completeA s expandReply

/-- POLYMOD (R106). -/
def execPolymod (s : State) : Host.Outcome State Fault Refusal := completeA s polymodReply

/-- CKCREATE (R107). -/
def execCkcreate (var : Variant) (s : State) : Host.Outcome State Fault Refusal :=
  completeAB s (ckcreateReply var)

/-- CKVERIFY (R108). -/
def execCkverify (s : State) : Host.Outcome State Fault Refusal := completeAB s ckverifyReply

end Sys2Proof.Machine
end

