-- ==== Sys2Proof/Machine/Converter.lean ====
section
/-!
DEFINITION. The bit converter: the function convert (R91) and the operation CONVERT (R90). The
accumulator and the bit count are natural numbers (R7: a left shift widens; R19 gives the widths they
never exceed, which Laws/Converter.lean proves).
-/

namespace Sys2Proof.Machine

/-- maxv (R91): a unit of `toBits` ones. -/
def unitMask (toBits : Nat) : Nat := (1 <<< toBits) - 1

/-- R91's inner loop, while bits ≥ toBits: the units it emits and the bits left. The fuel bounds the
iterations; `bits` of it are enough, since each takes at least one bit. -/
def emitUnits (toBits acc : Nat) : (fuel bits : Nat) → List Byte × Nat
  | 0, bits => ([], bits)
  | fuel + 1, bits =>
    if toBits ≤ bits then
      let (units, left) := emitUnits toBits acc fuel (bits - toBits)
      (BitVec.ofNat 8 ((acc >>> (bits - toBits)) &&& unitMask toBits) :: units, left)
    else ([], bits)

/-- R91's outer loop from unit `i` on, with the accumulator and bit count so far: the units emitted
and the final accumulator and bit count, or BitValueExceedsWidth at the first offending unit. -/
def convertLoop (fromBits toBits : Nat) :
    (input : List Byte) → (i acc bits : Nat) → Except Raise (List Byte × Nat × Nat)
  | [], _, acc, bits => .ok ([], acc, bits)
  | v :: vs, i, acc, bits =>
    if v.toNat >>> fromBits ≠ 0 then .error ⟨.bitValueExceedsWidth, i⟩
    else
      let acc1 := (acc <<< fromBits) ||| v.toNat
      let bits1 := bits + fromBits
      let (units, bits2) := emitUnits toBits acc1 bits1 bits1
      let acc2 := acc1 &&& ((1 <<< bits2) - 1)
      match convertLoop fromBits toBits vs (i + 1) acc2 bits2 with
      | .error e => .error e
      | .ok (out, accEnd, bitsEnd) => .ok (units ++ out, accEnd, bitsEnd)

/-- convert(input, fromBits, toBits, pad) (R91). -/
def convert (input : List Byte) (fromBits toBits : Nat) (pad : Bool) : Except Raise (List Byte) :=
  match convertLoop fromBits toBits input 0 0 0 with
  | .error e => .error e
  | .ok (out, acc, bits) =>
    let remainder := (acc <<< (toBits - bits)) &&& unitMask toBits
    if pad then
      if 0 < bits then .ok (out ++ [BitVec.ofNat 8 remainder]) else .ok out
    else if fromBits ≤ bits then .error ⟨.invalidPadding, 0⟩
    else if remainder ≠ 0 then .error ⟨.invalidPadding, 0⟩
    else .ok out

/-- R90's pseudocode. -/
def convertReply (pad : Bool) (fromBits toBits : BitVec 4) (input : List Byte) : Except Raise Reply :=
  match convert input fromBits.toNat toBits.toNat pad with
  | .error e => .error e
  | .ok r => .ok { outA := r }

/-- CONVERT (R90); a width outside 1 to 8 is an illegal command whatever the lengths (R56 item 4). -/
def execConvert (pad : Bool) (fromBits toBits : BitVec 4) (s : State) :
    Host.Outcome State Fault Refusal :=
  if legalWidth fromBits && legalWidth toBits then completeA s (convertReply pad fromBits toBits)
  else completeNone s (.error illegalCommand)

end Sys2Proof.Machine
end

