-- ==== Sys2Proof/Machine/Encoder.lean ====
section
/-!
DEFINITION. The string encoder: lower (R121), encode (R120) and encodeBytes (R122) with the operations
ENCODE and ENCODEB.
-/

namespace Sys2Proof.Machine

/-- lower of one unit (R121): the 26 ASCII capitals move up by 32, nothing else changes. -/
def lower (c : Byte) : Byte := if 0x41 ≤ c.toNat ∧ c.toNat ≤ 0x5A then c + 32 else c

/-- SEP, the character '1' (R5). -/
def separator : Byte := 0x31

/-- R120 steps 3 to 5: the string of a lowercased human-readable part and 5-bit values. -/
def encodedString (var : Variant) (hrp values : List Byte) : List Byte :=
  hrp ++ [separator] ++ (values ++ createChecksum var hrp values).map symbolOf

/-- R120's pseudocode, steps 1 to 5. -/
def encodeReply (var : Variant) (hrp values : List Byte) : Except Raise Reply :=
  if hrp.length = 0 then .error ⟨.prefixEmpty, 0⟩
  else if 83 < hrp.length then .error ⟨.prefixTooLong, 0⟩
  else checkGroups values (.ok { outA := encodedString var (hrp.map lower) values })

/-- R122's pseudocode: ENCODE of the bytes regrouped by five. -/
def encodebReply (var : Variant) (hrp bytes : List Byte) : Except Raise Reply :=
  match convert bytes 8 5 true with
  | .error e => .error e
  | .ok groups => encodeReply var hrp groups

/-- ENCODE (R120). -/
def execEncode (var : Variant) (s : State) : Host.Outcome State Fault Refusal :=
  completeAB s (encodeReply var)

/-- ENCODEB (R122). -/
def execEncodeb (var : Variant) (s : State) : Host.Outcome State Fault Refusal :=
  completeAB s (encodebReply var)

end Sys2Proof.Machine
end

