-- ==== Sys2Proof/Machine/Decoder.lean ====
section
/-!
DEFINITION. The string decoder: R131's algorithm step by step, and the operations DECODE (R130) and
DECODEB (R132).
-/

namespace Sys2Proof.Machine

/-- A lowercase letter (R131 step 2). -/
def isLowerLetter (c : Byte) : Bool := 0x61 ≤ c.toNat && c.toNat ≤ 0x7A

/-- An uppercase letter (R131 step 2). -/
def isUpperLetter (c : Byte) : Bool := 0x41 ≤ c.toNat && c.toNat ≤ 0x5A

/-- R131 step 2 from index `i` on, with LOWER_SEEN and UPPER_SEEN: one left-to-right scan (D18), per
character the range test and then the case test; none if every character passes. -/
def scanChars : (i : Nat) → (lowerSeen upperSeen : Bool) → List Byte → Option Raise
  | _, _, _, [] => none
  | i, lowerSeen, upperSeen, c :: cs =>
    if c.toNat < 33 ∨ 126 < c.toNat then some ⟨.invalidCharacterCode, i⟩
    else if isLowerLetter c && upperSeen then some ⟨.mixedCase, i⟩
    else if isUpperLetter c && lowerSeen then some ⟨.mixedCase, i⟩
    else scanChars (i + 1) (lowerSeen || isLowerLetter c) (upperSeen || isUpperLetter c) cs

/-- R131 step 3 from index `i` on: the greatest index of '1', or the one found before. -/
def lastSeparator : (i : Nat) → (found : Option Nat) → List Byte → Option Nat
  | _, found, [] => found
  | i, found, c :: cs => lastSeparator (i + 1) (if c = separator then some i else found) cs

/-- R131 step 5 from index `i` on: the values of the data part's characters, or UnknownCharacter at
the first character outside the alphabet. -/
def dataValues : (i : Nat) → List Byte → Except Raise (List Byte)
  | _, [] => .ok []
  | i, c :: cs =>
    if valueOf c = revInvalid then .error ⟨.unknownCharacter, i⟩
    else
      match dataValues (i + 1) cs with
      | .error e => .error e
      | .ok vs => .ok (valueOf c :: vs)

/-- The decoded value (R130): the variant, the lowercased human-readable part, the 5-bit payload. -/
structure Decoded where
  var : Variant
  hrp : List Byte
  payload : List Byte
  deriving DecidableEq, Repr

/-- R131 steps 6 to 8 on the two parts of the string. -/
def decodeParts (hrp values : List Byte) : Except Raise Decoded :=
  match verifyChecksum (hrp.map lower) values with
  | none => .error ⟨.checksumInvalid, 0⟩
  | some var => .ok ⟨var, hrp.map lower, values.take (values.length - 6)⟩

/-- R131 steps 4 and 5 for the last '1' at `pos`, then steps 6 to 8. -/
def decodeAt (str : List Byte) (pos : Nat) : Except Raise Decoded :=
  if str.length - 1 - pos < 6 then .error ⟨.dataPartTooShort, 0⟩
  else
    match dataValues (pos + 1) (str.drop (pos + 1)) with
    | .error e => .error e
    | .ok values => decodeParts (str.take pos) values

/-- decode (R131): the first failing check determines the error. -/
def decodeString (str : List Byte) : Except Raise Decoded :=
  if str.length < 8 then .error ⟨.stringTooShort, 0⟩
  else if 90 < str.length then .error ⟨.stringTooLong, 0⟩
  else
    match scanChars 0 false false str with
    | some e => .error e
    | none =>
      match lastSeparator 0 none str with
      | none => .error ⟨.missingSeparator, 0⟩
      | some 0 => .error ⟨.prefixEmpty, 0⟩
      | some (pos + 1) => decodeAt str (pos + 1)

/-- R131 step 8, what DECODE delivers (R130). -/
def decodeReply (str : List Byte) : Except Raise Reply :=
  match decodeString str with
  | .error e => .error e
  | .ok d => .ok { var := d.var, outA := d.hrp, outB := d.payload }

/-- R132 steps 9 and 10: the expectation test, then the payload as bytes. -/
def expectBytes (var : Variant) (expected : List Byte) (d : Decoded) : Except Raise Reply :=
  if d.var ≠ var ∨ d.hrp ≠ expected then .error ⟨.variantOrPrefixMismatch, 0⟩
  else
    match convert d.payload 5 8 false with
    | .error e => .error e
    | .ok bytes => .ok { var := d.var, outA := bytes }

/-- R132's pseudocode. -/
def decodebReply (var : Variant) (str expected : List Byte) : Except Raise Reply :=
  match decodeString str with
  | .error e => .error e
  | .ok d => expectBytes var expected d

/-- DECODE (R130, R131). -/
def execDecode (s : State) : Host.Outcome State Fault Refusal := completeA s decodeReply

/-- DECODEB (R132). -/
def execDecodeb (var : Variant) (s : State) : Host.Outcome State Fault Refusal :=
  completeAB s (decodebReply var)

end Sys2Proof.Machine
end

