-- ==== Sys2Proof/Machine/Dispatch.lean ====
section
/-!
DEFINITION. The meaning of each operation (R52, R58): one arm per constructor, one call per arm.
-/

namespace Sys2Proof.Machine

/-- Complete the operation in flight (R14). -/
def exec (i : Instr) (s : State) : Host.Outcome State Fault Refusal :=
  match i with
  | .csfwd arg => Sys2Proof.Machine.execCsfwd arg s
  | .csinv arg => Sys2Proof.Machine.execCsinv arg s
  | .convert pad fromBits toBits => Sys2Proof.Machine.execConvert pad fromBits toBits s
  | .expand => Sys2Proof.Machine.execExpand s
  | .polymod => Sys2Proof.Machine.execPolymod s
  | .ckcreate var => Sys2Proof.Machine.execCkcreate var s
  | .ckverify => Sys2Proof.Machine.execCkverify s
  | .encode var => Sys2Proof.Machine.execEncode var s
  | .decode => Sys2Proof.Machine.execDecode s
  | .encodeb var => Sys2Proof.Machine.execEncodeb var s
  | .decodeb var => Sys2Proof.Machine.execDecodeb var s

end Sys2Proof.Machine
end

