-- ==== Sys2Proof/Machine/Engine.lean ====
section
/-!
DEFINITION. The two agents (R14): the engine's completion of the command in CMD, and one move of the
whole machine, in which the host's next act decides who moves.
-/

namespace Sys2Proof.Machine

/-- Complete (R14, R58): the response of the operation CMD selects, or IllegalCommand where it selects
none (R56 items 1 to 3). -/
def State.complete (s : State) : Host.Outcome State Fault Refusal :=
  match decodeCommand s.cmd with
  | .ok i => exec i s
  | .error _ => .next (s.fail illegalCommand)

/-- The engine's turn: it completes the operation in flight; an idle block with nothing to do stays as
it is (R14, R170; log 10). -/
def State.engineTurn (s : State) : Host.Outcome State Fault Refusal :=
  if s.busy then s.complete else .next s

/-- One move: the host's next act; the engine's turn where the host waits or has no act left (R14,
R187: completion is always eventually taken). -/
def State.advance (s : State) : Host.Outcome State Fault Refusal :=
  match s.inputs with
  | [] => s.engineTurn
  | .wait :: rest => State.engineTurn { s with inputs := rest }
  | e :: rest => State.hostAct { s with inputs := rest } e

/-- The machine with a command issued and no act of the host before its completion: CMD, BUSY, and,
where the host has acts left, a wait before them. -/
def State.withCommand (s : State) (w : Word) : State :=
  { s.issue w with inputs := if s.inputs = [] then [] else .wait :: s.inputs }

end Sys2Proof.Machine
end

