-- ==== Sys2Proof/Machine/Step.lean ====
section
/-!
DEFINITION. One step of the machine, and the placing of a command where the next step completes it.
The block fetches nothing (R11, R40): a command comes to run when the host writes CMD (log 2).
-/

namespace Sys2Proof.Machine

/-- One step: an act of the host or the engine's completion (R14, R180). -/
def step (s : State) : Host.Outcome State Fault Refusal := s.advance

/-- The state in which a command word has just been issued, so that the very next step completes it
(R12, R14; log 2). -/
def State.withFetchWord (s : State) (nbits w : Nat) : State := s.withCommand (commandWord nbits w)

end Sys2Proof.Machine
end

