-- ==== Sys2Proof/Safety.lean ====
section
/-!
DEFINITION. The terms in which claims are made: the state a response leaves (R13, R36, R168), the
invariant of every step, the bit stream the converter re-slices (R32, R91), the conditions on strings
(R131, R133), the illegal commands (R56) and the error kinds each operation can report (R174). They
are written from the rules' words; of Machine/ they use only the functions that are named in them.
-/

namespace Sys2Proof.Machine

/-- The state after an operation returned (R13, R36, R43): STATUS = Ok, VAR_OUT = the variant, the two
output sequences with their lengths, ERR_POS = 0, BUSY = 0, everything else as it was. -/
def State.afterOk (s : State) (var : Variant) (result : Word) (outA outB : List Byte) : State :=
  { s with
    rsp := if var = .b then 0x10 else 0x00
    errPos := 0
    result := result
    lenOA := BitVec.ofNat 32 outA.length
    lenOB := BitVec.ofNat 32 outB.length
    outA := Memory.ofUnits outA
    outB := Memory.ofUnits outB
    busy := false }

/-- The state after an operation raised an error (R168): STATUS = the code, ERR_POS = the position,
every other response register 0, no output units, BUSY = 0, everything else as it was. -/
def State.afterError (s : State) (code : BitVec 4) (pos : Nat) : State :=
  { s with
    rsp := code.setWidth 32
    errPos := BitVec.ofNat 32 pos
    result := 0
    lenOA := 0
    lenOB := 0
    outA := []
    outB := []
    busy := false }

/-- What every step keeps: the buffers are canonical and inside their capacities (R30), the valid
output units are exactly those below the length registers (R13, R37), the bits the rules fix at 0 are
0 (R13), and a failure shows nothing but STATUS and ERR_POS (R168). -/
structure State.Inv (s : State) : Prop where
  inA_wf : s.inA.wf = true
  inB_wf : s.inB.wf = true
  outA_wf : s.outA.wf = true
  outB_wf : s.outB.wf = true
  inA_capacity : ∀ i, (s.inA.read i).isSome = true → i < Config.cap
  inB_capacity : ∀ i, (s.inB.read i).isSome = true → i < Config.cap
  outA_valid : ∀ i, (s.outA.read i).isSome = true ↔ i < s.lenOA.toNat
  outB_valid : ∀ i, (s.outB.read i).isSome = true ↔ i < s.lenOB.toNat
  outA_capacity : s.lenOA.toNat ≤ 8 * Config.cap + 8
  outB_capacity : s.lenOB.toNat ≤ Config.cap
  rsp_reserved : s.rsp.extractLsb' 5 27 = 0
  result_reserved : s.result.extractLsb' 30 2 = 0
  failure_empty : s.status ≠ 0 →
    s.varOut = false ∧ s.result = 0 ∧ s.lenOA = 0 ∧ s.lenOB = 0

/-- The operation reads IN_A (R43). -/
def readsA : Instr → Bool
  | .csfwd _ => false
  | .csinv _ => false
  | .convert _ _ _ => true
  | .expand => true
  | .polymod => true
  | .ckcreate _ => true
  | .ckverify => true
  | .encode _ => true
  | .decode => true
  | .encodeb _ => true
  | .decodeb _ => true

/-- The operation reads IN_B (R43). -/
def readsB : Instr → Bool
  | .csfwd _ => false
  | .csinv _ => false
  | .convert _ _ _ => false
  | .expand => false
  | .polymod => false
  | .ckcreate _ => true
  | .ckverify => true
  | .encode _ => true
  | .decode => false
  | .encodeb _ => true
  | .decodeb _ => true

/-- The lengths of the buffers the operation reads are at most CAP (R56 item 5). -/
abbrev lengthsLegal (i : Instr) (s : State) : Prop :=
  (readsA i = true → s.lenA.toNat ≤ Config.cap) ∧ (readsB i = true → s.lenB.toNat ≤ Config.cap)

/-- R56's conditions on the command word, by the numbers of its OP and fields (items 1 to 4). -/
abbrev illegalWord (w : Word) : Prop :=
  let op := (w.extractLsb' 0 4).toNat
  let fromBits := (w.extractLsb' 6 4).toNat
  let toBits := (w.extractLsb' 10 4).toNat
  (op = 0 ∨ 12 ≤ op) ∨
  (w.extractLsb' 14 2 ≠ 0 ∨ w.extractLsb' 24 8 ≠ 0) ∨
  (w.getLsbD 4 = true ∧ op ∉ [6, 8, 10, 11]) ∨
  ((w.getLsbD 5 = true ∨ fromBits ≠ 0 ∨ toBits ≠ 0) ∧ op ≠ 3) ∨
  (w.extractLsb' 16 8 ≠ 0 ∧ op ∉ [1, 2]) ∨
  (op = 3 ∧ (fromBits = 0 ∨ 8 < fromBits ∨ toBits = 0 ∨ 8 < toBits))

/-- R56's condition on the lengths (item 5): OP 3 to 11 read IN_A; 6, 7, 8, 10 and 11 read IN_B (R43). -/
abbrev illegalLengths (w lenA lenB : Word) : Prop :=
  let op := (w.extractLsb' 0 4).toNat
  (3 ≤ op ∧ op ≤ 11 ∧ Config.cap < lenA.toNat) ∨ (op ∈ [6, 7, 8, 10, 11] ∧ Config.cap < lenB.toNat)

/-- The row of R174's matrix for an OP: the STATUS codes its commands can report besides 0. -/
def reportable (op : Nat) : List Nat :=
  match op with
  | 1 => [14, 15]
  | 2 => [14]
  | 3 => [11, 12, 14]
  | 4 => [14]
  | 5 => [14, 15]
  | 6 => [14, 15]
  | 7 => [10, 14, 15]
  | 8 => [1, 2, 14, 15]
  | 9 => [1, 3, 4, 5, 6, 7, 8, 9, 10, 14]
  | 10 => [1, 2, 14]
  | 11 => [1, 3, 4, 5, 6, 7, 8, 9, 10, 12, 13, 14]
  | _ => [14]

/-- The kinds that carry a position (R169): InvalidCharacterCode, MixedCase, UnknownCharacter,
BitValueExceedsWidth, OperandOutOfDomain. -/
def carriesPosition (code : Nat) : Bool := code ∈ [5, 6, 9, 11, 15]

/-- The bits a unit contributes to the stream: its low `width` bits, most significant first (R32, R91). -/
def unitBits (width : Nat) (v : Byte) : List Bool :=
  (List.range width).map (fun k => v.getLsbD (width - 1 - k))

/-- The bit stream of a sequence, unit 0 first (R32, R91). -/
def bitStream (width : Nat) (units : List Byte) : List Bool := units.flatMap (unitBits width)

/-- The unit whose bits, most significant first, are the list's (R32). -/
def unitOfBits (bits : List Bool) : Byte :=
  BitVec.ofNat 8 (bits.foldl (fun n b => 2 * n + b.toNat) 0)

/-- The full units of `width` bits at the front of a stream (R32, R92 item 1). -/
def wholeUnits (width : Nat) (bits : List Bool) : List Byte :=
  (List.range (bits.length / width)).map (fun j => unitOfBits ((bits.drop (j * width)).take width))

/-- The bits of a stream that fill no unit of `width` bits (R92 item 1). -/
def leftoverBits (width : Nat) (bits : List Bool) : List Bool :=
  bits.drop (bits.length / width * width)

/-- What convert makes of a stream (R91, R92 items 1 to 3): the whole units, then, with padding, one
unit of the leftover bits filled with zeros; without padding an error if a whole input unit or a one
bit would be dropped. -/
def resliced (fromBits toBits : Nat) (pad : Bool) (bits : List Bool) : Except Raise (List Byte) :=
  let rest := leftoverBits toBits bits
  if pad then
    .ok (wholeUnits toBits bits
      ++ if rest = [] then [] else [unitOfBits (rest ++ List.replicate (toBits - rest.length) false)])
  else if fromBits ≤ rest.length ∨ true ∈ rest then .error ⟨.invalidPadding, 0⟩
  else .ok (wholeUnits toBits bits)

/-- A lowercase letter's code, 'a' to 'z' (R131 step 2). -/
abbrev lowerCode (c : Byte) : Prop := 0x61 ≤ c.toNat ∧ c.toNat ≤ 0x7A

/-- An uppercase letter's code, 'A' to 'Z' (R131 step 2). -/
abbrev upperCode (c : Byte) : Prop := 0x41 ≤ c.toNat ∧ c.toNat ≤ 0x5A

/-- Every character passes step 2 of R131: codes 33 to 126, and no two letters of different case
(R133). -/
abbrev cleanChars (str : List Byte) : Prop :=
  (∀ c ∈ str, 33 ≤ c.toNat ∧ c.toNat ≤ 126) ∧
  ¬ ((∃ c ∈ str, lowerCode c) ∧ (∃ c ∈ str, upperCode c))

/-- The string is `hrp`, the last '1', and `data` (R131 step 3; '1' is 0x31). -/
abbrev splitsAt (str hrp data : List Byte) : Prop := str = hrp ++ 0x31 :: data ∧ (0x31 : Byte) ∉ data

/-- Every character is in the alphabet, in either case (R131 step 5). -/
abbrev inAlphabet (data : List Byte) : Prop := ∀ c ∈ data, valueOf c ≠ 0xFF

/-- Every unit is a 5-bit group, 0 to 31 (R31). -/
abbrev areGroups (units : List Byte) : Prop := ∀ v ∈ units, v.toNat ≤ 31

/-- The polymod of the lowercased prefix and the data part's values (R131 steps 6 and 7). -/
def stringPolymod (hrp data : List Byte) : Poly := polymod (expand (hrp.map lower) ++ data.map valueOf)

/-- DECODE, or DECODEB with a legal length of the expected prefix: the operations that run R131. -/
def decodesString (i : Instr) (s : State) : Prop :=
  i = .decode ∨ ∃ var, i = .decodeb var ∧ s.lenB.toNat ≤ Config.cap

end Sys2Proof.Machine
end

