-- ==== Sys2Proof/Certificates/Slice0/Obligations.lean ====
section
/-!
DEFINITION. The statements for the provers. Each docstring names the rule of spec/ it formalises; the
order is: encoding, the step, the host, reset, whole-machine rules, the functions, what each operation
delivers, what each error kind is raised for, and the laws over several operations.
-/

open Sys2Proof Sys2Proof.Machine

/-! ### Encoding -/

/-- The opcode map loses nothing in either direction (30_encoding.md, sections 1 and 2): every operation
with every value of its fields is read back from its word, and every word that selects an operation is
that operation's word. -/
def Obligations.EncodedCommandsDecodeBack : Prop :=
  (∀ i : Instr, decodeCommand (encodeCommand i) = .ok i) ∧
  ∀ (w : Word) (i : Instr), decodeCommand w = .ok i → encodeCommand i = w

/-- Words written out in the spec decode to the operations they stand for (30_encoding.md; R54, R80,
R81, R90, R105 to R108, R120, R122, R130, R132 give them in their encodings and examples). -/
def Obligations.WordsOfTheSpecDecode : Prop :=
  decodeCommand 0x000F0001 = .ok (.csfwd 15) ∧
  decodeCommand 0x004C0002 = .ok (.csinv 0x4C) ∧
  decodeCommand 0x00001623 = .ok (.convert true 8 5) ∧
  decodeCommand 0x00002143 = .ok (.convert false 5 8) ∧
  decodeCommand 0x00000004 = .ok .expand ∧
  decodeCommand 0x00000005 = .ok .polymod ∧
  decodeCommand 0x00000016 = .ok (.ckcreate .b) ∧
  decodeCommand 0x00000007 = .ok .ckverify ∧
  decodeCommand 0x00000018 = .ok (.encode .b) ∧
  decodeCommand 0x00000009 = .ok .decode ∧
  decodeCommand 0x0000000A = .ok (.encodeb .a) ∧
  decodeCommand 0x0000000B = .ok (.decodeb .a)

/-- The words the decoder rejects, or whose operation is not well formed, are exactly those R56 items
1 to 4 call illegal. -/
def Obligations.DecoderRefusesTheIllegalWords : Prop :=
  ∀ w : Word, illegalWord w ↔
    (∃ r, decodeCommand w = .error r) ∨ ∃ i, decodeCommand w = .ok i ∧ i.wellFormed = false

/-! ### The step -/

/-- The step of a busy block with no act of the host before it is exec of the operation its command
word selects, on that very state, or, where the host waits, on the state with the wait taken off; and
a placed word is what the next step runs, with CMD and BUSY set and nothing else changed. That the
engine completes the operation CMD selects is the spec's (10_state.md section 3, 30_encoding.md section 4).
The rest is the model's: the list of the host's acts, the wait, and that the engine moves where the list
is empty or a wait stands first (DESIGN CHOICE, log 1), the completion as one step (DEDUCED, log 3),
withFetchWord (DEDUCED, log 2) and commandWord (DEDUCED, log 17). -/
def Obligations.StepCompletesTheDecodedOperation : Prop :=
  (∀ (s : State) (i : Instr), s.busy = true → decodeCommand s.cmd = .ok i →
    (s.inputs = [] → step s = exec i s) ∧
    (∀ rest, s.inputs = .wait :: rest → step s = exec i { s with inputs := rest })) ∧
  (∀ (s : State) (nbits w : Nat) (i : Instr), decodeTableWord nbits w = some i →
    step (s.withFetchWord nbits w) = exec i { s with cmd := commandWord nbits w, busy := true })

/-- R56, R165: the completion of an illegal command is the failure response IllegalCommand with
position 0, whatever the buffers hold; a command that meets none of the five conditions does not end
with IllegalCommand. -/
def Obligations.IllegalCommandsAreExactlyThese : Prop :=
  ∀ s : State, s.busy = true → s.inputs = [] →
    ((illegalWord s.cmd ∨ illegalLengths s.cmd s.lenA s.lenB) →
      step s = .next (s.afterError 14 0)) ∧
    (¬ (illegalWord s.cmd ∨ illegalLengths s.cmd s.lenA s.lenB) →
      ∃ t, step s = .next t ∧ t.status ≠ 14)

/-- R14, R187: a busy block whose host only reads, waits or writes read-only registers is idle once
the host's acts and one more step are done. That the engine moves where the host waits or has no act left
is the model's form (logs 1, 10, 16). -/
def Obligations.CompletionIsReached : Prop :=
  ∀ s : State, s.busy = true →
    (∀ e ∈ s.inputs, e = .wait ∨ (∃ r, e = .readReg r) ∨ (∃ r v, e = .writeResponse r v) ∨
      (∃ k, e = .readOutA k ∧ k < 8 * Config.cap + 8) ∨ (∃ k, e = .readOutB k ∧ k < Config.cap)) →
    ∃ t, Host.Core.run Sys2Proof.core (s.inputs.length + 1) s = .next t ∧
      t.busy = false ∧ t.inputs = []

/-! ### The host -/

/-- R12, R14, R30, R33: while BUSY = 0 a host write of CMD issues (CMD takes the word, BUSY becomes 1),
one of LEN_A or LEN_B changes that register, and one of a unit below CAP changes that unit of that
buffer; nothing else changes. -/
def Obligations.HostWritesOneRegisterOrUnit : Prop :=
  (∀ (s : State) (n : Word) (rest : List HostEvent), s.busy = false →
    (s.inputs = .writeCmd n :: rest → step s = .next { s with cmd := n, busy := true, inputs := rest }) ∧
    (s.inputs = .writeLenA n :: rest → step s = .next { s with lenA := n, inputs := rest }) ∧
    (s.inputs = .writeLenB n :: rest → step s = .next { s with lenB := n, inputs := rest })) ∧
  (∀ (s : State) (k : Nat) (v : Byte) (rest : List HostEvent), s.busy = false → k < Config.cap →
    (s.inputs = .writeInA k v :: rest → ∃ m, step s = .next { s with inA := m, inputs := rest } ∧
      m.read k = some v ∧ ∀ j, j ≠ k → m.read j = s.inA.read j) ∧
    (s.inputs = .writeInB k v :: rest → ∃ m, step s = .next { s with inB := m, inputs := rest } ∧
      m.read k = some v ∧ ∀ j, j ≠ k → m.read j = s.inB.read j))

/-- R13: a host write to a response register or to BUSY is ignored, busy or not. -/
def Obligations.ResponseRegistersIgnoreHostWrites : Prop :=
  ∀ (s : State) (r : ResponseReg) (v : Word) (rest : List HostEvent),
    s.inputs = .writeResponse r v :: rest → step s = .next { s with inputs := rest }

/-- R12, R13, R185: a host read of a register returns its value and has no other effect; a read of a
response register while BUSY = 1 returns an unspecified value, in the model a free value that spends a
draw (the model's choice, log 7: nothing here says which value). -/
def Obligations.HostReadsRegisters : Prop :=
  ∀ (s : State) (r : Reg) (rest : List HostEvent), s.inputs = .readReg r :: rest →
    ∃ v d, step s = .next { s with hostData := v, draws := d, inputs := rest } ∧
      (r = .cmd → v = s.cmd ∧ d = s.draws) ∧
      (r = .lenA → v = s.lenA ∧ d = s.draws) ∧
      (r = .lenB → v = s.lenB ∧ d = s.draws) ∧
      (r = .busy → v = (if s.busy then 1 else 0) ∧ d = s.draws) ∧
      (s.busy = false →
        (r = .rsp → v = s.rsp ∧ d = s.draws) ∧
        (r = .errPos → v = s.errPos ∧ d = s.draws) ∧
        (r = .result → v = s.result ∧ d = s.draws) ∧
        (r = .lenOA → v = s.lenOA ∧ d = s.draws) ∧
        (r = .lenOB → v = s.lenOB ∧ d = s.draws)) ∧
      (s.busy = true → r ∈ [.rsp, .errPos, .result, .lenOA, .lenOB] →
        v = Config.freeWord s.draws ∧ d = s.draws + 1)

/-- R33, R36, R37, R185: while BUSY = 0 a host read of a valid output unit returns the unit; a read of
an output unit that is not valid, or while BUSY = 1, returns an unspecified value, in the model a free
byte that spends a draw (the model's choice, logs 6 and 7); a read changes nothing of the block. -/
def Obligations.HostReadsOutputUnits : Prop :=
  ∀ (s : State) (k : Nat) (rest : List HostEvent),
    (s.inputs = .readOutA k :: rest → k < 8 * Config.cap + 8 →
      (∀ v, s.busy = false → s.outA.read k = some v →
        step s = .next { s with hostData := v.setWidth 32, inputs := rest }) ∧
      (s.busy = true ∨ s.outA.read k = none →
        step s = .next { s with
          hostData := (Config.freeByte s.draws).setWidth 32, draws := s.draws + 1, inputs := rest })) ∧
    (s.inputs = .readOutB k :: rest → k < Config.cap →
      (∀ v, s.busy = false → s.outB.read k = some v →
        step s = .next { s with hostData := v.setWidth 32, inputs := rest }) ∧
      (s.busy = true ∨ s.outB.read k = none →
        step s = .next { s with
          hostData := (Config.freeByte s.draws).setWidth 32, draws := s.draws + 1, inputs := rest }))

/-- R182 (D22: no step for a host that breaks the duty): a host write of CMD, LEN_A, LEN_B or of an
input unit while BUSY = 1 stops the machine by name; the fault is the model's choice (log 8). -/
def Obligations.HostWritesWhileBusyStop : Prop :=
  ∀ (s : State) (e : HostEvent) (rest : List HostEvent), s.busy = true → s.inputs = e :: rest →
    ((∃ w, e = .writeCmd w) ∨ (∃ n, e = .writeLenA n) ∨ (∃ n, e = .writeLenB n) ∨
      (∃ k v, e = .writeInA k v ∧ k < Config.cap) ∨ (∃ k v, e = .writeInB k v ∧ k < Config.cap)) →
    step s = .fault .hostWriteWhileBusy

/-- R30: a host access to an index at or above a buffer's capacity, CAP for IN_A, IN_B and OUT_B and
8·CAP + 8 for OUT_A, stops the machine by name (the model's choice, log 9). -/
def Obligations.NoUnitBeyondTheCapacity : Prop :=
  ∀ (s : State) (k : Nat) (v : Byte) (rest : List HostEvent),
    (Config.cap ≤ k → s.inputs = .writeInA k v :: rest → step s = .fault .noSuchUnit) ∧
    (Config.cap ≤ k → s.inputs = .writeInB k v :: rest → step s = .fault .noSuchUnit) ∧
    (8 * Config.cap + 8 ≤ k → s.inputs = .readOutA k :: rest → step s = .fault .noSuchUnit) ∧
    (Config.cap ≤ k → s.inputs = .readOutB k :: rest → step s = .fault .noSuchUnit)

/-! ### Reset -/

/-- R22: the state after reset: every register 0, idle, no unit of any buffer holding a value of its
own (that an unspecified unit is an unlisted one is the model's form, logs 5 and 6). -/
def Obligations.ResetValues : Prop :=
  State.reset.cmd = 0 ∧ State.reset.lenA = 0 ∧ State.reset.lenB = 0 ∧
  State.reset.rsp = 0 ∧ State.reset.status = 0 ∧ State.reset.varOut = false ∧
  State.reset.errPos = 0 ∧ State.reset.result = 0 ∧
  State.reset.lenOA = 0 ∧ State.reset.lenOB = 0 ∧ State.reset.busy = false ∧
  ∀ k, State.reset.inA.read k = none ∧ State.reset.inB.read k = none ∧
    State.reset.outA.read k = none ∧ State.reset.outB.read k = none

/-- R180: reset may be taken in every state, busy or not: every register becomes 0, the operation in
flight is dropped, no buffer unit keeps its value; the count of resets and the host's later acts are the
model's own fields (log 12). -/
def Obligations.ResetEventClearsTheBlock : Prop :=
  ∀ (s : State) (rest : List HostEvent), s.inputs = .reset :: rest →
    ∃ t, step s = .next t ∧
      t.cmd = 0 ∧ t.lenA = 0 ∧ t.lenB = 0 ∧ t.rsp = 0 ∧ t.errPos = 0 ∧ t.result = 0 ∧
      t.lenOA = 0 ∧ t.lenOB = 0 ∧ t.busy = false ∧
      (∀ k, t.inA.read k = none ∧ t.inB.read k = none ∧ t.outA.read k = none ∧ t.outB.read k = none) ∧
      t.epoch = s.epoch + 1 ∧ t.inputs = rest

/-! ### Whole-machine rules -/

/-- Every step keeps the invariant: buffers canonical and within capacity, exactly the units below the
length registers valid, the fixed bits 0, a failure showing only STATUS and ERR_POS (R13, R30, R36,
R37, R168). That the valid output units are exactly the listed ones is the model's form (log 6). -/
def Obligations.EveryStepKeepsTheInvariant : Prop :=
  ∀ s t : State, s.Inv → step s = .next t → t.Inv

/-- The state after reset meets the invariant (R22). -/
def Obligations.ResetMeetsTheInvariant : Prop := State.reset.Inv

/-- The frame of all eleven operations, from every state: an operation always completes (R14: every
operation terminates), leaves BUSY = 0, and changes nothing but the response registers and the output
buffers: CMD, LEN_A, LEN_B and every unit of IN_A and IN_B are as before (R37, R168). -/
def Obligations.OperationsCompleteAndKeepTheirInputs : Prop :=
  ∀ (i : Instr) (s : State), ∃ t, exec i s = .next t ∧ t.busy = false ∧
    t.cmd = s.cmd ∧ t.lenA = s.lenA ∧ t.lenB = s.lenB ∧
    (∀ k, t.inA.read k = s.inA.read k) ∧ (∀ k, t.inB.read k = s.inB.read k) ∧
    t.inA = s.inA ∧ t.inB = s.inB ∧
    t.hostData = s.hostData ∧ t.epoch = s.epoch ∧ t.draws = s.draws ∧ t.inputs = s.inputs

/-- R168, R169: whatever an operation fails with, the state it leaves shows the code in STATUS and a
position in ERR_POS, 0 unless the kind is one of the five that carry one, and nothing else. -/
def Obligations.FailureShowsOnlyStatusAndPosition : Prop :=
  ∀ (i : Instr) (s t : State), exec i s = .next t → t.status ≠ 0 →
    ∃ pos, t = s.afterError t.status pos ∧ (carriesPosition t.status.toNat = false → pos = 0)

/-- R13, R169: an operation that returns leaves ERR_POS 0; VAR_OUT is 0 but for CKVERIFY, DECODE and
DECODEB; RESULT is 0 but for POLYMOD; LEN_OB is 0 but for DECODE. -/
def Obligations.SuccessWritesOnlyTheOperationsResults : Prop :=
  ∀ (i : Instr) (s t : State), exec i s = .next t → t.status = 0 →
    t.errPos = 0 ∧
    (t.varOut = true → i = .ckverify ∨ i = .decode ∨ ∃ var, i = .decodeb var) ∧
    (t.result ≠ 0 → i = .polymod) ∧
    (t.lenOB ≠ 0 → i = .decode)

/-- R174: a completion never reports a code outside its operation's row of the matrix. -/
def Obligations.StatusStaysInTheMatrix : Prop :=
  ∀ s t : State, s.busy = true → s.inputs = [] → step s = .next t →
    t.status.toNat = 0 ∨ t.status.toNat ∈ reportable (s.cmd.extractLsb' 0 4).toNat

/-- R20: the response depends on the command and on the valid units of the buffers the operation
reads, and on nothing else of the state. -/
def Obligations.ResponseDependsOnlyOnTheInputsRead : Prop :=
  ∀ (i : Instr) (s u s' u' : State),
    (readsA i = true → s.lenA = u.lenA ∧ ∀ k, k < s.lenA.toNat → s.unitA k = u.unitA k) →
    (readsB i = true → s.lenB = u.lenB ∧ ∀ k, k < s.lenB.toNat → s.unitB k = u.unitB k) →
    exec i s = .next s' → exec i u = .next u' →
    s'.rsp = u'.rsp ∧ s'.errPos = u'.errPos ∧ s'.result = u'.result ∧
      s'.lenOA = u'.lenOA ∧ s'.lenOB = u'.lenOB ∧
      (∀ k, s'.outA.read k = u'.outA.read k) ∧ (∀ k, s'.outB.read k = u'.outB.read k)

/-- R43's length column: what each operation writes to LEN_OA and LEN_OB when it returns. -/
def Obligations.OutputLengthsAreTheTables : Prop :=
  ∀ (i : Instr) (s t : State), exec i s = .next t → t.status = 0 →
    let l := s.lenA.toNat
    let n := s.lenB.toNat
    (∀ arg, i = .csfwd arg ∨ i = .csinv arg → t.lenOA.toNat = 1 ∧ t.lenOB = 0) ∧
    (∀ f w, i = .convert true f w → i.wellFormed = true →
      t.lenOA.toNat = (l * f.toNat + w.toNat - 1) / w.toNat ∧ t.lenOB = 0) ∧
    (∀ f w, i = .convert false f w → i.wellFormed = true →
      t.lenOA.toNat = l * f.toNat / w.toNat ∧ t.lenOB = 0) ∧
    (i = .expand → t.lenOA.toNat = 2 * l + 1 ∧ t.lenOB = 0) ∧
    (i = .polymod → t.lenOA = 0 ∧ t.lenOB = 0) ∧
    (∀ var, i = .ckcreate var → t.lenOA.toNat = 6 ∧ t.lenOB = 0) ∧
    (i = .ckverify → t.lenOA = 0 ∧ t.lenOB = 0) ∧
    (∀ var, i = .encode var → t.lenOA.toNat = l + 1 + n + 6 ∧ t.lenOB = 0) ∧
    (∀ hrp data, i = .decode → splitsAt s.unitsA hrp data →
      t.lenOA.toNat = hrp.length ∧ t.lenOB.toNat = l - hrp.length - 7) ∧
    (∀ var, i = .encodeb var → t.lenOA.toNat = l + 1 + (8 * n + 4) / 5 + 6 ∧ t.lenOB = 0) ∧
    (∀ var hrp data, i = .decodeb var → splitsAt s.unitsA hrp data →
      t.lenOA.toNat = 5 * (l - hrp.length - 7) / 8 ∧ t.lenOB = 0)

/-- R8, R30, R33: the sequence an operation reads from an input buffer has as many units as the length
register says, and unit k is the one the host last wrote there; a unit the host has not written since
the last reset is a free value (the model's choice, log 5), the same at every read. -/
def Obligations.OperandsAreTheUnitsTheHostWrote : Prop :=
  ∀ s : State,
    s.unitsA.length = s.lenA.toNat ∧ s.unitsB.length = s.lenB.toNat ∧
    (∀ k, k < s.lenA.toNat → s.unitsA[k]? = some ((s.inA.read k).getD (Config.freeUnit s.epoch 0 k))) ∧
    (∀ k, k < s.lenB.toNat → s.unitsB[k]? = some ((s.inB.read k).getD (Config.freeUnit s.epoch 1 k)))

/-! ### The functions -/

/-- R82 and R121: the two mappings undo each other up to the case fold, which moves the codes 0x41 to
0x5A up by 32 and changes no other; the alphabet holds the nine digits but '1' and the 23 letters but
b, i and o; 55 codes below 128 are valid, 73 are invalid, and so are all from 128 on. -/
def Obligations.CharsetMappingsAreInverse : Prop :=
  (∀ c : Byte, (0x41 ≤ c.toNat ∧ c.toNat ≤ 0x5A → (lower c).toNat = c.toNat + 32) ∧
    (¬ (0x41 ≤ c.toNat ∧ c.toNat ≤ 0x5A) → lower c = c)) ∧
  (∀ v : Byte, v.toNat ≤ 31 → valueOf (symbolOf v) = v) ∧
  (∀ c : Byte, valueOf c ≠ 0xFF → (valueOf c).toNat ≤ 31 ∧ symbolOf (valueOf c) = lower c) ∧
  (∀ c : Byte, 128 ≤ c.toNat → valueOf c = 0xFF) ∧
  ((List.range 128).filter (fun n => valueOf (BitVec.ofNat 8 n) ≠ 0xFF)).length = 55 ∧
  ((List.range 128).filter (fun n => valueOf (BitVec.ofNat 8 n) = 0xFF)).length = 73 ∧
  (∀ c : Byte, (∃ v : Byte, v.toNat ≤ 31 ∧ symbolOf v = c) ↔
    c ∈ "023456789acdefghjklmnpqrstuvwxyz".toList.map (fun x => BitVec.ofNat 8 x.toNat))

/-- R101: expand gives bits 6:5 of each character, a 0, bits 4:0 of each character, 2L + 1 values in
0 to 31; bit 7 of a character does not matter. -/
def Obligations.ExpandLaysOutThePrefix : Prop :=
  ∀ p : List Byte,
    (expand p).length = 2 * p.length + 1 ∧
    (∀ (k : Nat) (c : Byte), p[k]? = some c → (expand p)[k]? = some (BitVec.ofNat 8 (c.toNat % 128 / 32))) ∧
    (expand p)[p.length]? = some 0 ∧
    (∀ (k : Nat) (c : Byte), p[k]? = some c → (expand p)[p.length + 1 + k]? = some (BitVec.ofNat 8 (c.toNat % 32))) ∧
    areGroups (expand p) ∧
    expand (p.map (fun c => c ^^^ 0x80)) = expand p

/-- R102: polymod starts at 1; each value 0 to 31 shifts the low 25 bits left by five, comes in below,
and XORs in each of the five constants whose bit of the old top five is set; the worked trace. -/
def Obligations.PolymodFoldsEachValue : Prop :=
  polymod [] = 1 ∧
  (∀ (vs : List Byte) (v : Byte), v.toNat ≤ 31 →
    let c := (polymod vs).toNat
    (polymod (vs ++ [v])).toNat =
      ((c % 2 ^ 25) * 32 + v.toNat)
        ^^^ (if c.testBit 25 then 0x3b6a57b2 else 0)
        ^^^ (if c.testBit 26 then 0x26508e6d else 0)
        ^^^ (if c.testBit 27 then 0x1ea119fa else 0)
        ^^^ (if c.testBit 28 then 0x3d4233dd else 0)
        ^^^ (if c.testBit 29 then 0x2a1462b3 else 0)) ∧
  (List.range 10).map (fun k => polymod ([3, 0, 1, 0, 0, 0, 0, 0, 0].take k)) =
    [0x00000001, 0x00000023, 0x00000460, 0x00008C01, 0x00118020, 0x02300400, 0x3D6AD7B2,
      0x02FD30B9, 0x24CC4092, 0x15CCFE9E]

/-- R103: a checksum is the polymod of prefix, values and six zeros, XORed with the variant's
constant, as six groups, most significant first; the worked values. -/
def Obligations.ChecksumIsTheSplitPolymod : Prop :=
  (∀ (var : Variant) (p vals : List Byte),
    let m := ((polymod (expand p ++ vals ++ [0, 0, 0, 0, 0, 0])).toNat
      ^^^ (if var = .b then 0x2bc830a3 else 1))
    createChecksum var p vals =
      [m / 2 ^ 25 % 32, m / 2 ^ 20 % 32, m / 2 ^ 15 % 32, m / 2 ^ 10 % 32, m / 2 ^ 5 % 32, m % 32].map
        (BitVec.ofNat 8)) ∧
  createChecksum .a [0x61] [] = [10, 28, 25, 31, 20, 31] ∧
  createChecksum .b [0x61] [] = [31, 0, 9, 19, 17, 29] ∧
  (createChecksum .a [0x61] []).map symbolOf = "2uel5l".toList.map (fun x => BitVec.ofNat 8 x.toNat) ∧
  (createChecksum .b [0x61] []).map symbolOf = "lqfn3a".toList.map (fun x => BitVec.ofNat 8 x.toNat)

/-- R104: verification answers the variant whose constant the polymod equals, else invalid, and a
created checksum verifies as its variant for every prefix and all values in 0 to 31. -/
def Obligations.CreatedChecksumVerifies : Prop :=
  (∀ p vals : List Byte,
    let m := (polymod (expand p ++ vals)).toNat
    (m = 1 → verifyChecksum p vals = some .a) ∧
    (m = 0x2BC830A3 → verifyChecksum p vals = some .b) ∧
    (m ≠ 1 → m ≠ 0x2BC830A3 → verifyChecksum p vals = none)) ∧
  ∀ (var : Variant) (p vals : List Byte), areGroups vals →
    verifyChecksum p (vals ++ createChecksum var p vals) = some var

/-- R91, R32: convert re-slices the stream of the units' low bits, most significant first, into units
of the other width, with R91's treatment of the bits left over; the first unit that does not fit its
width ends it with BitValueExceedsWidth at its index. -/
def Obligations.ConvertReslicesTheBitStream : Prop :=
  ∀ (f t : Nat) (pad : Bool), 1 ≤ f → f ≤ 8 → 1 ≤ t → t ≤ 8 →
    (∀ input : List Byte, (∀ v ∈ input, v.toNat < 2 ^ f) →
      convert input f t pad = resliced f t pad (bitStream f input)) ∧
    (∀ (before after : List Byte) (v : Byte), (∀ u ∈ before, u.toNat < 2 ^ f) → 2 ^ f ≤ v.toNat →
      convert (before ++ v :: after) f t pad = .error ⟨.bitValueExceedsWidth, before.length⟩)

/-- R92 items 2 to 6 and 8: how many units convert gives, that each fits the width, the empty input,
when 5 to 8 without padding succeeds, and that equal widths change nothing. -/
def Obligations.ConvertLengthsAndBounds : Prop :=
  ∀ (f t : Nat) (pad : Bool) (input : List Byte), 1 ≤ f → f ≤ 8 → 1 ≤ t → t ≤ 8 →
    (∀ v ∈ input, v.toNat < 2 ^ f) →
    let total := input.length * f
    (pad = true → ∃ out, convert input f t pad = .ok out ∧ out.length = (total + t - 1) / t) ∧
    (∀ out, convert input f t false = .ok out → out.length = total / t ∧ total % t < f) ∧
    (∀ out, convert input f t pad = .ok out → ∀ v ∈ out, v.toNat < 2 ^ t) ∧
    convert [] f t pad = .ok [] ∧
    (f = 5 → t = 8 → input.length % 8 = 1 ∨ input.length % 8 = 3 ∨ input.length % 8 = 6 →
      convert input f t false = .error ⟨.invalidPadding, 0⟩) ∧
    (f = t → convert input f t pad = .ok input)

/-- R92 item 7: regrouping bytes by five with padding and back without gives the bytes again, for
every byte sequence. -/
def Obligations.ConvertBackGivesTheBytes : Prop :=
  ∀ bytes : List Byte, ∃ groups, convert bytes 8 5 true = .ok groups ∧ areGroups groups ∧
    convert groups 5 8 false = .ok bytes

/-! ### What each operation delivers -/

/-- R80: CSFWD of an index 0 to 31 delivers the one character of the alphabet at that index. -/
def Obligations.CsfwdGivesTheCharacter : Prop :=
  ∀ (arg : BitVec 8) (s : State), arg.toNat ≤ 31 →
    exec (.csfwd arg) s = .next (s.afterOk .a 0
      [BitVec.ofNat 8 ("qpzry9x8gf2tvdw0s3jn54khce6mua7l".toList.getD arg.toNat ' ').toNat] [])

/-- R81: CSINV of a code delivers one unit: the index of the character in the alphabet, upper and lower
case alike, or 0xFF for a code outside it and for every code from 128 on; it always returns. -/
def Obligations.CsinvGivesTheIndex : Prop :=
  ∀ (arg : BitVec 8) (s : State), ∃ v : Byte,
    exec (.csinv arg) s = .next (s.afterOk .a 0 [v] []) ∧
    (∀ k, k < 32 →
      (arg.toNat = ("qpzry9x8gf2tvdw0s3jn54khce6mua7l".toList.getD k ' ').toNat ∨
        arg.toNat = ("QPZRY9X8GF2TVDW0S3JN54KHCE6MUA7L".toList.getD k ' ').toNat) → v.toNat = k) ∧
    ((∀ c : Char, c ∈ "qpzry9x8gf2tvdw0s3jn54khce6mua7lQPZRYXGFTVDWSJNKHCEMUAL".toList →
      arg.toNat ≠ c.toNat) → v = 0xFF)

/-- R90: CONVERT with legal widths and units that fit delivers the re-sliced stream, where that is no
padding error. -/
def Obligations.ConvertDeliversTheUnits : Prop :=
  ∀ (pad : Bool) (f t : BitVec 4) (s : State) (out : List Byte),
    1 ≤ f.toNat → f.toNat ≤ 8 → 1 ≤ t.toNat → t.toNat ≤ 8 → s.lenA.toNat ≤ Config.cap →
    (∀ v ∈ s.unitsA, v.toNat < 2 ^ f.toNat) →
    resliced f.toNat t.toNat pad (bitStream f.toNat s.unitsA) = .ok out →
    exec (.convert pad f t) s = .next (s.afterOk .a 0 out [])

/-- R105: EXPAND delivers expand of the characters given, whatever they are. -/
def Obligations.ExpandDeliversTheExpansion : Prop :=
  ∀ s : State, s.lenA.toNat ≤ Config.cap →
    exec .expand s = .next (s.afterOk .a 0 (expand s.unitsA) [])

/-- R106: POLYMOD of 5-bit values delivers their polymod in RESULT[29:0], and no units. -/
def Obligations.PolymodDeliversTheResult : Prop :=
  ∀ s : State, s.lenA.toNat ≤ Config.cap → areGroups s.unitsA →
    exec .polymod s = .next (s.afterOk .a (BitVec.ofNat 32 (polymod s.unitsA).toNat) [] [])

/-- R107: CKCREATE delivers the six checksum values of the prefix as given (not lowercased) and the
5-bit data values. -/
def Obligations.CkcreateDeliversTheChecksum : Prop :=
  ∀ (var : Variant) (s : State), s.lenA.toNat ≤ Config.cap → s.lenB.toNat ≤ Config.cap →
    areGroups s.unitsB →
    exec (.ckcreate var) s = .next (s.afterOk .a 0 (createChecksum var s.unitsA s.unitsB) [])

/-- R108: CKVERIFY delivers in VAR_OUT the variant whose constant the polymod of prefix and values
equals, and no units. -/
def Obligations.CkverifyDeliversTheVariant : Prop :=
  ∀ (var : Variant) (s : State), s.lenA.toNat ≤ Config.cap → s.lenB.toNat ≤ Config.cap →
    areGroups s.unitsB →
    (polymod (expand s.unitsA ++ s.unitsB)).toNat = (if var = .b then 0x2BC830A3 else 1) →
    exec .ckverify s = .next (s.afterOk var 0 [] [])

/-- R120: ENCODE of a prefix of 1 to 83 characters and 5-bit values delivers the lowercased prefix,
'1', and the symbols of the values and of the checksum over the lowercased prefix; nothing else is
checked. -/
def Obligations.EncodeDeliversTheString : Prop :=
  ∀ (var : Variant) (s : State), 1 ≤ s.lenA.toNat → s.lenA.toNat ≤ 83 → s.lenB.toNat ≤ Config.cap →
    areGroups s.unitsB →
    let p := s.unitsA.map lower
    exec (.encode var) s = .next (s.afterOk .a 0
      (p ++ 0x31 :: (s.unitsB ++ createChecksum var p s.unitsB).map symbolOf) [])

/-- R130, R131: DECODE of a string that passes every check delivers the matched variant, the
lowercased prefix and the values of the data part less the last six. -/
def Obligations.DecodeDeliversTheParts : Prop :=
  ∀ (var : Variant) (s : State) (hrp data : List Byte),
    8 ≤ s.lenA.toNat → s.lenA.toNat ≤ 90 → cleanChars s.unitsA → splitsAt s.unitsA hrp data →
    hrp ≠ [] → 6 ≤ data.length → inAlphabet data →
    (stringPolymod hrp data).toNat = (if var = .b then 0x2BC830A3 else 1) →
    exec .decode s = .next (s.afterOk var 0 (hrp.map lower)
      ((data.map valueOf).take (data.length - 6)))

/-- R122: ENCODEB delivers what ENCODE delivers for the bytes regrouped by five with padding; no byte
is refused. -/
def Obligations.EncodebDeliversTheString : Prop :=
  ∀ (var : Variant) (s : State), 1 ≤ s.lenA.toNat → s.lenA.toNat ≤ 83 → s.lenB.toNat ≤ Config.cap →
    ∃ groups, resliced 8 5 true (bitStream 8 s.unitsB) = .ok groups ∧
      let p := s.unitsA.map lower
      exec (.encodeb var) s = .next (s.afterOk .a 0
        (p ++ 0x31 :: (groups ++ createChecksum var p groups).map symbolOf) [])

/-- R132: DECODEB of a string DECODE accepts, with the expected variant and the expected lowercased
prefix, delivers the payload regrouped by eight, where that is no padding error. -/
def Obligations.DecodebDeliversTheBytes : Prop :=
  ∀ (var : Variant) (s : State) (hrp data bytes : List Byte),
    8 ≤ s.lenA.toNat → s.lenA.toNat ≤ 90 → s.lenB.toNat ≤ Config.cap →
    cleanChars s.unitsA → splitsAt s.unitsA hrp data → hrp ≠ [] → 6 ≤ data.length → inAlphabet data →
    (stringPolymod hrp data).toNat = (if var = .b then 0x2BC830A3 else 1) →
    hrp.map lower = s.unitsB →
    resliced 5 8 false (bitStream 5 ((data.map valueOf).take (data.length - 6))) = .ok bytes →
    exec (.decodeb var) s = .next (s.afterOk var 0 bytes [])

/-! ### What each error kind is raised for -/

/-- R152: PrefixEmpty, by ENCODE and ENCODEB for an empty prefix, by DECODE and DECODEB where the last
'1' is at index 0; position 0. -/
def Obligations.PrefixEmptyIsRaised : Prop :=
  (∀ (var : Variant) (s : State), s.lenA.toNat = 0 → s.lenB.toNat ≤ Config.cap →
    exec (.encode var) s = .next (s.afterError 1 0) ∧
    exec (.encodeb var) s = .next (s.afterError 1 0)) ∧
  (∀ (i : Instr) (s : State) (data : List Byte), decodesString i s →
    8 ≤ s.lenA.toNat → s.lenA.toNat ≤ 90 → cleanChars s.unitsA → splitsAt s.unitsA [] data →
    exec i s = .next (s.afterError 1 0))

/-- R153: PrefixTooLong, by ENCODE and ENCODEB for more than 83 characters, never by DECODE or
DECODEB; position 0. -/
def Obligations.PrefixTooLongIsRaised : Prop :=
  (∀ (var : Variant) (s : State), 83 < s.lenA.toNat → s.lenA.toNat ≤ Config.cap →
    s.lenB.toNat ≤ Config.cap →
    exec (.encode var) s = .next (s.afterError 2 0) ∧
    exec (.encodeb var) s = .next (s.afterError 2 0)) ∧
  (∀ (s t : State) (var : Variant),
    exec .decode s = .next t ∨ exec (.decodeb var) s = .next t → t.status ≠ 2)

/-- R154: StringTooShort, by DECODE and DECODEB below 8 characters, the empty string included. -/
def Obligations.StringTooShortIsRaised : Prop :=
  ∀ (i : Instr) (s : State), decodesString i s → s.lenA.toNat < 8 →
    exec i s = .next (s.afterError 3 0)

/-- R155: StringTooLong, by DECODE and DECODEB above 90 characters and up to CAP; above CAP the
command is illegal instead. -/
def Obligations.StringTooLongIsRaised : Prop :=
  ∀ (i : Instr) (s : State), decodesString i s →
    (90 < s.lenA.toNat → s.lenA.toNat ≤ Config.cap → exec i s = .next (s.afterError 4 0)) ∧
    (Config.cap < s.lenA.toNat → exec i s = .next (s.afterError 14 0))

/-- R156: InvalidCharacterCode at the first character outside 33 to 126, provided no earlier character
failed step 2; the position is its index. -/
def Obligations.InvalidCharacterCodeIsRaised : Prop :=
  ∀ (i : Instr) (s : State) (before after : List Byte) (c : Byte), decodesString i s →
    8 ≤ s.lenA.toNat → s.lenA.toNat ≤ 90 → s.unitsA = before ++ c :: after → cleanChars before →
    (c.toNat < 33 ∨ 126 < c.toNat) →
    exec i s = .next (s.afterError 5 before.length)

/-- R157: MixedCase at the first letter whose case differs from that of an earlier letter, provided no
earlier character failed step 2; the position is its index. -/
def Obligations.MixedCaseIsRaised : Prop :=
  ∀ (i : Instr) (s : State) (before after : List Byte) (c : Byte), decodesString i s →
    8 ≤ s.lenA.toNat → s.lenA.toNat ≤ 90 → s.unitsA = before ++ c :: after → cleanChars before →
    ((lowerCode c ∧ ∃ d ∈ before, upperCode d) ∨ (upperCode c ∧ ∃ d ∈ before, lowerCode d)) →
    exec i s = .next (s.afterError 6 before.length)

/-- R158: MissingSeparator, by DECODE and DECODEB where no character is '1'; position 0. -/
def Obligations.MissingSeparatorIsRaised : Prop :=
  ∀ (i : Instr) (s : State), decodesString i s → 8 ≤ s.lenA.toNat → s.lenA.toNat ≤ 90 →
    cleanChars s.unitsA → (0x31 : Byte) ∉ s.unitsA →
    exec i s = .next (s.afterError 7 0)

/-- R159: DataPartTooShort, by DECODE and DECODEB where fewer than six characters follow the last '1',
none included; position 0. -/
def Obligations.DataPartTooShortIsRaised : Prop :=
  ∀ (i : Instr) (s : State) (hrp data : List Byte), decodesString i s →
    8 ≤ s.lenA.toNat → s.lenA.toNat ≤ 90 → cleanChars s.unitsA → splitsAt s.unitsA hrp data →
    hrp ≠ [] → data.length < 6 →
    exec i s = .next (s.afterError 8 0)

/-- R160: UnknownCharacter at the first character of the data part outside the alphabet; the position
is its index in the whole string. -/
def Obligations.UnknownCharacterIsRaised : Prop :=
  ∀ (i : Instr) (s : State) (hrp before after : List Byte) (c : Byte), decodesString i s →
    8 ≤ s.lenA.toNat → s.lenA.toNat ≤ 90 → cleanChars s.unitsA →
    splitsAt s.unitsA hrp (before ++ c :: after) → hrp ≠ [] → 6 ≤ (before ++ c :: after).length →
    inAlphabet before → valueOf c = 0xFF →
    exec i s = .next (s.afterError 9 (hrp.length + 1 + before.length))

/-- R161: ChecksumInvalid, by DECODE, DECODEB and CKVERIFY where the polymod is neither constant;
position 0, RESULT 0. -/
def Obligations.ChecksumInvalidIsRaised : Prop :=
  (∀ (i : Instr) (s : State) (hrp data : List Byte), decodesString i s →
    8 ≤ s.lenA.toNat → s.lenA.toNat ≤ 90 → cleanChars s.unitsA → splitsAt s.unitsA hrp data →
    hrp ≠ [] → 6 ≤ data.length → inAlphabet data →
    (stringPolymod hrp data).toNat ≠ 1 → (stringPolymod hrp data).toNat ≠ 0x2BC830A3 →
    exec i s = .next (s.afterError 10 0)) ∧
  (∀ s : State, s.lenA.toNat ≤ Config.cap → s.lenB.toNat ≤ Config.cap → areGroups s.unitsB →
    (polymod (expand s.unitsA ++ s.unitsB)).toNat ≠ 1 →
    (polymod (expand s.unitsA ++ s.unitsB)).toNat ≠ 0x2BC830A3 →
    exec .ckverify s = .next (s.afterError 10 0))

/-- R162: BitValueExceedsWidth, by CONVERT at the first unit with a bit above its width; the position
is its index; only CONVERT, and only with FROM_BITS below 8. -/
def Obligations.BitValueExceedsWidthIsRaised : Prop :=
  (∀ (pad : Bool) (f t : BitVec 4) (s : State) (before after : List Byte) (v : Byte),
    1 ≤ f.toNat → f.toNat ≤ 8 → 1 ≤ t.toNat → t.toNat ≤ 8 → s.lenA.toNat ≤ Config.cap →
    s.unitsA = before ++ v :: after → (∀ u ∈ before, u.toNat < 2 ^ f.toNat) → 2 ^ f.toNat ≤ v.toNat →
    exec (.convert pad f t) s = .next (s.afterError 11 before.length)) ∧
  (∀ (i : Instr) (s t : State), exec i s = .next t → t.status = 11 →
    ∃ pad f w, i = .convert pad f w ∧ f.toNat < 8)

/-- R163: InvalidPadding, by CONVERT without padding and by DECODEB, where a whole input unit or a one
bit would be dropped; position 0. -/
def Obligations.InvalidPaddingIsRaised : Prop :=
  (∀ (f t : BitVec 4) (s : State),
    1 ≤ f.toNat → f.toNat ≤ 8 → 1 ≤ t.toNat → t.toNat ≤ 8 → s.lenA.toNat ≤ Config.cap →
    (∀ v ∈ s.unitsA, v.toNat < 2 ^ f.toNat) →
    (f.toNat ≤ (leftoverBits t.toNat (bitStream f.toNat s.unitsA)).length ∨
      true ∈ leftoverBits t.toNat (bitStream f.toNat s.unitsA)) →
    exec (.convert false f t) s = .next (s.afterError 12 0)) ∧
  (∀ (var : Variant) (s : State) (hrp data : List Byte),
    8 ≤ s.lenA.toNat → s.lenA.toNat ≤ 90 → s.lenB.toNat ≤ Config.cap →
    cleanChars s.unitsA → splitsAt s.unitsA hrp data → hrp ≠ [] → 6 ≤ data.length → inAlphabet data →
    (stringPolymod hrp data).toNat = (if var = .b then 0x2BC830A3 else 1) →
    hrp.map lower = s.unitsB →
    (5 ≤ (leftoverBits 8 (bitStream 5 ((data.map valueOf).take (data.length - 6)))).length ∨
      true ∈ leftoverBits 8 (bitStream 5 ((data.map valueOf).take (data.length - 6)))) →
    exec (.decodeb var) s = .next (s.afterError 12 0))

/-- R164: VariantOrPrefixMismatch, by DECODEB for a string DECODE accepts with another variant or
another lowercased prefix than expected; the expected prefix is compared as given; position 0. -/
def Obligations.VariantOrPrefixMismatchIsRaised : Prop :=
  ∀ (found var : Variant) (s : State) (hrp data : List Byte),
    8 ≤ s.lenA.toNat → s.lenA.toNat ≤ 90 → s.lenB.toNat ≤ Config.cap →
    cleanChars s.unitsA → splitsAt s.unitsA hrp data → hrp ≠ [] → 6 ≤ data.length → inAlphabet data →
    (stringPolymod hrp data).toNat = (if found = .b then 0x2BC830A3 else 1) →
    (found ≠ var ∨ hrp.map lower ≠ s.unitsB) →
    exec (.decodeb var) s = .next (s.afterError 13 0)

/-- R166: OperandOutOfDomain, by CSFWD above 31 (position 0) and by POLYMOD, CKCREATE, CKVERIFY and
ENCODE at the first unit above 31 of the buffer that holds the 5-bit groups; never by CONVERT. -/
def Obligations.OperandOutOfDomainIsRaised : Prop :=
  (∀ (arg : BitVec 8) (s : State), 31 < arg.toNat → exec (.csfwd arg) s = .next (s.afterError 15 0)) ∧
  (∀ (s : State) (before after : List Byte) (v : Byte), s.lenA.toNat ≤ Config.cap →
    s.unitsA = before ++ v :: after → areGroups before → 31 < v.toNat →
    exec .polymod s = .next (s.afterError 15 before.length)) ∧
  (∀ (var : Variant) (s : State) (before after : List Byte) (v : Byte), s.lenA.toNat ≤ Config.cap →
    s.lenB.toNat ≤ Config.cap → s.unitsB = before ++ v :: after → areGroups before → 31 < v.toNat →
    exec (.ckcreate var) s = .next (s.afterError 15 before.length) ∧
    exec .ckverify s = .next (s.afterError 15 before.length) ∧
    (1 ≤ s.lenA.toNat → s.lenA.toNat ≤ 83 →
      exec (.encode var) s = .next (s.afterError 15 before.length))) ∧
  (∀ (pad : Bool) (f w : BitVec 4) (s t : State), exec (.convert pad f w) s = .next t → t.status ≠ 15)

/-! ### Laws over several operations -/

/-- R133: what every string satisfies that DECODE accepts, and what it delivers of it. -/
def Obligations.AcceptedStringsSatisfyEveryCheck : Prop :=
  ∀ s t : State, exec .decode s = .next t → t.status = 0 →
    8 ≤ s.lenA.toNat ∧ s.lenA.toNat ≤ 90 ∧ cleanChars s.unitsA ∧
    ∃ (var : Variant) (hrp data : List Byte), splitsAt s.unitsA hrp data ∧
      1 ≤ hrp.length ∧ hrp.length ≤ 83 ∧ 6 ≤ data.length ∧ inAlphabet data ∧ areGroups (data.map valueOf) ∧
      (stringPolymod hrp data).toNat = (if var = .b then 0x2BC830A3 else 1) ∧
      t = s.afterOk var 0 (hrp.map lower) ((data.map valueOf).take (data.length - 6))

/-- R134: a string ENCODE makes of printable prefix characters and 5-bit values, at most 90 characters
in all, decodes to the same variant, the lowercased prefix and the same values, in every state that
presents it; and ENCODEB and DECODEB likewise for bytes. -/
def Obligations.EncodingThenDecodingRoundTrips : Prop :=
  (∀ (var : Variant) (s : State), 1 ≤ s.lenA.toNat → s.lenA.toNat ≤ 83 →
    (∀ c ∈ s.unitsA, 33 ≤ c.toNat ∧ c.toNat ≤ 126) → areGroups s.unitsB →
    s.lenA.toNat + s.lenB.toNat + 7 ≤ 90 →
    ∃ str, exec (.encode var) s = .next (s.afterOk .a 0 str []) ∧
      ∀ u : State, u.unitsA = str →
        exec .decode u = .next (u.afterOk var 0 (s.unitsA.map lower) s.unitsB)) ∧
  (∀ (var : Variant) (s : State), 1 ≤ s.lenA.toNat → s.lenA.toNat ≤ 83 →
    (∀ c ∈ s.unitsA, 33 ≤ c.toNat ∧ c.toNat ≤ 126) →
    s.lenA.toNat + (8 * s.lenB.toNat + 4) / 5 + 7 ≤ 90 →
    ∃ str, exec (.encodeb var) s = .next (s.afterOk .a 0 str []) ∧
      ∀ u : State, u.unitsA = str → u.unitsB = s.unitsA.map lower →
        exec (.decodeb var) u = .next (u.afterOk var 0 s.unitsB []))

/-- R123 items 1 and 2: what ENCODE and ENCODEB write after the prefix is '1' and lowercase symbols of
the alphabet, no output holds a capital letter, and prefixes that differ in case only give the same
string. -/
def Obligations.EncoderOutputIsLowercase : Prop :=
  ∀ (i : Instr) (var : Variant) (s t : State), i = .encode var ∨ i = .encodeb var →
    exec i s = .next t → t.status = 0 →
    (∀ k c, t.outA.read k = some c → ¬ upperCode c) ∧
    (∃ syms, t.outA = Memory.ofUnits (s.unitsA.map lower ++ 0x31 :: syms) ∧
      ∀ c ∈ syms, c ∈ "qpzry9x8gf2tvdw0s3jn54khce6mua7l".toList.map (fun x => BitVec.ofNat 8 x.toNat)) ∧
    (∀ u u' : State, u.lenB = s.lenB → u.unitsB = s.unitsB →
      u.unitsA.map lower = s.unitsA.map lower → exec i u = .next u' →
      u'.rsp = t.rsp ∧ u'.lenOA = t.lenOA ∧ u'.outA = t.outA)

/-- R60: ENCODEB is CONVERT 8 to 5 with padding followed by ENCODE, and DECODEB is DECODE, the
expectation test, and CONVERT 5 to 8 without padding: run one after the other on states that present
the intermediate sequences, they give the same response. -/
def Obligations.MacroOperationsEqualTheirExpansions : Prop :=
  (∀ (var : Variant) (s c c' e e' t : State), s.lenA.toNat ≤ Config.cap →
    c.unitsA = s.unitsB → exec (.convert true 8 5) c = .next c' → c'.status = 0 →
    e.lenB.toNat ≤ Config.cap → e.unitsA = s.unitsA → Memory.ofUnits e.unitsB = c'.outA →
    exec (.encode var) e = .next e' → exec (.encodeb var) s = .next t →
    s.lenB.toNat ≤ Config.cap →
    t.rsp = e'.rsp ∧ t.errPos = e'.errPos ∧ t.result = e'.result ∧ t.lenOA = e'.lenOA ∧
      t.lenOB = e'.lenOB ∧ t.outA = e'.outA ∧ t.outB = e'.outB) ∧
  (∀ (var : Variant) (s d d' c c' t : State), s.lenB.toNat ≤ Config.cap →
    d.unitsA = s.unitsA → exec .decode d = .next d' → exec (.decodeb var) s = .next t →
    (d'.status ≠ 0 → t.rsp = d'.rsp ∧ t.errPos = d'.errPos ∧ t.result = d'.result ∧
      t.lenOA = d'.lenOA ∧ t.lenOB = d'.lenOB ∧ t.outA = d'.outA ∧ t.outB = d'.outB) ∧
    (d'.status = 0 → (d'.varOut = var.bit ∧ d'.outA = Memory.ofUnits s.unitsB →
      Memory.ofUnits c.unitsA = d'.outB → exec (.convert false 5 8) c = .next c' →
        t.status = c'.status ∧ (t.status = 0 → t.varOut = d'.varOut) ∧ (t.status ≠ 0 → t.varOut = false) ∧
        t.errPos = c'.errPos ∧ t.result = c'.result ∧ t.lenOA = c'.lenOA ∧ t.lenOB = c'.lenOB ∧
        t.outA = c'.outA ∧ t.outB = c'.outB) ∧
      (¬ (d'.varOut = var.bit ∧ d'.outA = Memory.ofUnits s.unitsB) → t = s.afterError 13 0)))
end

