-- ==== Sys2Proof/Laws/State.lean ====
section
/-!
SUPPORT. One lemma per field per update of State, each true by rfl, so that no later proof unfolds a
record update.
-/

namespace Sys2Proof.Machine

variable (s : State)

@[simp] theorem State.respond_cmd (status : BitVec 4) (varOut : Bool) (pos result : Word) (outA outB : List Byte) :
    (s.respond status varOut pos result outA outB).cmd = s.cmd := rfl
@[simp] theorem State.respond_lenA (status : BitVec 4) (varOut : Bool) (pos result : Word) (outA outB : List Byte) :
    (s.respond status varOut pos result outA outB).lenA = s.lenA := rfl
@[simp] theorem State.respond_lenB (status : BitVec 4) (varOut : Bool) (pos result : Word) (outA outB : List Byte) :
    (s.respond status varOut pos result outA outB).lenB = s.lenB := rfl
@[simp] theorem State.respond_rsp (status : BitVec 4) (varOut : Bool) (pos result : Word) (outA outB : List Byte) :
    (s.respond status varOut pos result outA outB).rsp = packRsp status varOut := rfl
@[simp] theorem State.respond_errPos (status : BitVec 4) (varOut : Bool) (pos result : Word) (outA outB : List Byte) :
    (s.respond status varOut pos result outA outB).errPos = pos := rfl
@[simp] theorem State.respond_result (status : BitVec 4) (varOut : Bool) (pos result : Word) (outA outB : List Byte) :
    (s.respond status varOut pos result outA outB).result = result := rfl
@[simp] theorem State.respond_lenOA (status : BitVec 4) (varOut : Bool) (pos result : Word) (outA outB : List Byte) :
    (s.respond status varOut pos result outA outB).lenOA = BitVec.ofNat 32 outA.length := rfl
@[simp] theorem State.respond_lenOB (status : BitVec 4) (varOut : Bool) (pos result : Word) (outA outB : List Byte) :
    (s.respond status varOut pos result outA outB).lenOB = BitVec.ofNat 32 outB.length := rfl
@[simp] theorem State.respond_busy (status : BitVec 4) (varOut : Bool) (pos result : Word) (outA outB : List Byte) :
    (s.respond status varOut pos result outA outB).busy = false := rfl
@[simp] theorem State.respond_inA (status : BitVec 4) (varOut : Bool) (pos result : Word) (outA outB : List Byte) :
    (s.respond status varOut pos result outA outB).inA = s.inA := rfl
@[simp] theorem State.respond_inB (status : BitVec 4) (varOut : Bool) (pos result : Word) (outA outB : List Byte) :
    (s.respond status varOut pos result outA outB).inB = s.inB := rfl
@[simp] theorem State.respond_outA (status : BitVec 4) (varOut : Bool) (pos result : Word) (outA outB : List Byte) :
    (s.respond status varOut pos result outA outB).outA = Memory.ofUnits outA := rfl
@[simp] theorem State.respond_outB (status : BitVec 4) (varOut : Bool) (pos result : Word) (outA outB : List Byte) :
    (s.respond status varOut pos result outA outB).outB = Memory.ofUnits outB := rfl
@[simp] theorem State.respond_hostData (status : BitVec 4) (varOut : Bool) (pos result : Word) (outA outB : List Byte) :
    (s.respond status varOut pos result outA outB).hostData = s.hostData := rfl
@[simp] theorem State.respond_epoch (status : BitVec 4) (varOut : Bool) (pos result : Word) (outA outB : List Byte) :
    (s.respond status varOut pos result outA outB).epoch = s.epoch := rfl
@[simp] theorem State.respond_draws (status : BitVec 4) (varOut : Bool) (pos result : Word) (outA outB : List Byte) :
    (s.respond status varOut pos result outA outB).draws = s.draws := rfl
@[simp] theorem State.respond_inputs (status : BitVec 4) (varOut : Bool) (pos result : Word) (outA outB : List Byte) :
    (s.respond status varOut pos result outA outB).inputs = s.inputs := rfl

@[simp] theorem State.issue_cmd (w : Word) :
    (s.issue w).cmd = w := rfl
@[simp] theorem State.issue_lenA (w : Word) :
    (s.issue w).lenA = s.lenA := rfl
@[simp] theorem State.issue_lenB (w : Word) :
    (s.issue w).lenB = s.lenB := rfl
@[simp] theorem State.issue_rsp (w : Word) :
    (s.issue w).rsp = s.rsp := rfl
@[simp] theorem State.issue_errPos (w : Word) :
    (s.issue w).errPos = s.errPos := rfl
@[simp] theorem State.issue_result (w : Word) :
    (s.issue w).result = s.result := rfl
@[simp] theorem State.issue_lenOA (w : Word) :
    (s.issue w).lenOA = s.lenOA := rfl
@[simp] theorem State.issue_lenOB (w : Word) :
    (s.issue w).lenOB = s.lenOB := rfl
@[simp] theorem State.issue_busy (w : Word) :
    (s.issue w).busy = true := rfl
@[simp] theorem State.issue_inA (w : Word) :
    (s.issue w).inA = s.inA := rfl
@[simp] theorem State.issue_inB (w : Word) :
    (s.issue w).inB = s.inB := rfl
@[simp] theorem State.issue_outA (w : Word) :
    (s.issue w).outA = s.outA := rfl
@[simp] theorem State.issue_outB (w : Word) :
    (s.issue w).outB = s.outB := rfl
@[simp] theorem State.issue_hostData (w : Word) :
    (s.issue w).hostData = s.hostData := rfl
@[simp] theorem State.issue_epoch (w : Word) :
    (s.issue w).epoch = s.epoch := rfl
@[simp] theorem State.issue_draws (w : Word) :
    (s.issue w).draws = s.draws := rfl
@[simp] theorem State.issue_inputs (w : Word) :
    (s.issue w).inputs = s.inputs := rfl

@[simp] theorem State.resetEvent_cmd :
    (s.resetEvent).cmd = 0 := rfl
@[simp] theorem State.resetEvent_lenA :
    (s.resetEvent).lenA = 0 := rfl
@[simp] theorem State.resetEvent_lenB :
    (s.resetEvent).lenB = 0 := rfl
@[simp] theorem State.resetEvent_rsp :
    (s.resetEvent).rsp = 0 := rfl
@[simp] theorem State.resetEvent_errPos :
    (s.resetEvent).errPos = 0 := rfl
@[simp] theorem State.resetEvent_result :
    (s.resetEvent).result = 0 := rfl
@[simp] theorem State.resetEvent_lenOA :
    (s.resetEvent).lenOA = 0 := rfl
@[simp] theorem State.resetEvent_lenOB :
    (s.resetEvent).lenOB = 0 := rfl
@[simp] theorem State.resetEvent_busy :
    (s.resetEvent).busy = false := rfl
@[simp] theorem State.resetEvent_inA :
    (s.resetEvent).inA = [] := rfl
@[simp] theorem State.resetEvent_inB :
    (s.resetEvent).inB = [] := rfl
@[simp] theorem State.resetEvent_outA :
    (s.resetEvent).outA = [] := rfl
@[simp] theorem State.resetEvent_outB :
    (s.resetEvent).outB = [] := rfl
@[simp] theorem State.resetEvent_hostData :
    (s.resetEvent).hostData = s.hostData := rfl
@[simp] theorem State.resetEvent_epoch :
    (s.resetEvent).epoch = s.epoch + 1 := rfl
@[simp] theorem State.resetEvent_draws :
    (s.resetEvent).draws = s.draws := rfl
@[simp] theorem State.resetEvent_inputs :
    (s.resetEvent).inputs = s.inputs := rfl

@[simp] theorem State.latch_cmd (v : Word) :
    (s.latch v).cmd = s.cmd := rfl
@[simp] theorem State.latch_lenA (v : Word) :
    (s.latch v).lenA = s.lenA := rfl
@[simp] theorem State.latch_lenB (v : Word) :
    (s.latch v).lenB = s.lenB := rfl
@[simp] theorem State.latch_rsp (v : Word) :
    (s.latch v).rsp = s.rsp := rfl
@[simp] theorem State.latch_errPos (v : Word) :
    (s.latch v).errPos = s.errPos := rfl
@[simp] theorem State.latch_result (v : Word) :
    (s.latch v).result = s.result := rfl
@[simp] theorem State.latch_lenOA (v : Word) :
    (s.latch v).lenOA = s.lenOA := rfl
@[simp] theorem State.latch_lenOB (v : Word) :
    (s.latch v).lenOB = s.lenOB := rfl
@[simp] theorem State.latch_busy (v : Word) :
    (s.latch v).busy = s.busy := rfl
@[simp] theorem State.latch_inA (v : Word) :
    (s.latch v).inA = s.inA := rfl
@[simp] theorem State.latch_inB (v : Word) :
    (s.latch v).inB = s.inB := rfl
@[simp] theorem State.latch_outA (v : Word) :
    (s.latch v).outA = s.outA := rfl
@[simp] theorem State.latch_outB (v : Word) :
    (s.latch v).outB = s.outB := rfl
@[simp] theorem State.latch_hostData (v : Word) :
    (s.latch v).hostData = v := rfl
@[simp] theorem State.latch_epoch (v : Word) :
    (s.latch v).epoch = s.epoch := rfl
@[simp] theorem State.latch_draws (v : Word) :
    (s.latch v).draws = s.draws := rfl
@[simp] theorem State.latch_inputs (v : Word) :
    (s.latch v).inputs = s.inputs := rfl

@[simp] theorem State.latchFree_cmd (v : Word) :
    (s.latchFree v).cmd = s.cmd := rfl
@[simp] theorem State.latchFree_lenA (v : Word) :
    (s.latchFree v).lenA = s.lenA := rfl
@[simp] theorem State.latchFree_lenB (v : Word) :
    (s.latchFree v).lenB = s.lenB := rfl
@[simp] theorem State.latchFree_rsp (v : Word) :
    (s.latchFree v).rsp = s.rsp := rfl
@[simp] theorem State.latchFree_errPos (v : Word) :
    (s.latchFree v).errPos = s.errPos := rfl
@[simp] theorem State.latchFree_result (v : Word) :
    (s.latchFree v).result = s.result := rfl
@[simp] theorem State.latchFree_lenOA (v : Word) :
    (s.latchFree v).lenOA = s.lenOA := rfl
@[simp] theorem State.latchFree_lenOB (v : Word) :
    (s.latchFree v).lenOB = s.lenOB := rfl
@[simp] theorem State.latchFree_busy (v : Word) :
    (s.latchFree v).busy = s.busy := rfl
@[simp] theorem State.latchFree_inA (v : Word) :
    (s.latchFree v).inA = s.inA := rfl
@[simp] theorem State.latchFree_inB (v : Word) :
    (s.latchFree v).inB = s.inB := rfl
@[simp] theorem State.latchFree_outA (v : Word) :
    (s.latchFree v).outA = s.outA := rfl
@[simp] theorem State.latchFree_outB (v : Word) :
    (s.latchFree v).outB = s.outB := rfl
@[simp] theorem State.latchFree_hostData (v : Word) :
    (s.latchFree v).hostData = v := rfl
@[simp] theorem State.latchFree_epoch (v : Word) :
    (s.latchFree v).epoch = s.epoch := rfl
@[simp] theorem State.latchFree_draws (v : Word) :
    (s.latchFree v).draws = s.draws + 1 := rfl
@[simp] theorem State.latchFree_inputs (v : Word) :
    (s.latchFree v).inputs = s.inputs := rfl

@[simp] theorem State.withCommand_cmd (w : Word) :
    (s.withCommand w).cmd = w := rfl
@[simp] theorem State.withCommand_lenA (w : Word) :
    (s.withCommand w).lenA = s.lenA := rfl
@[simp] theorem State.withCommand_lenB (w : Word) :
    (s.withCommand w).lenB = s.lenB := rfl
@[simp] theorem State.withCommand_rsp (w : Word) :
    (s.withCommand w).rsp = s.rsp := rfl
@[simp] theorem State.withCommand_errPos (w : Word) :
    (s.withCommand w).errPos = s.errPos := rfl
@[simp] theorem State.withCommand_result (w : Word) :
    (s.withCommand w).result = s.result := rfl
@[simp] theorem State.withCommand_lenOA (w : Word) :
    (s.withCommand w).lenOA = s.lenOA := rfl
@[simp] theorem State.withCommand_lenOB (w : Word) :
    (s.withCommand w).lenOB = s.lenOB := rfl
@[simp] theorem State.withCommand_busy (w : Word) :
    (s.withCommand w).busy = true := rfl
@[simp] theorem State.withCommand_inA (w : Word) :
    (s.withCommand w).inA = s.inA := rfl
@[simp] theorem State.withCommand_inB (w : Word) :
    (s.withCommand w).inB = s.inB := rfl
@[simp] theorem State.withCommand_outA (w : Word) :
    (s.withCommand w).outA = s.outA := rfl
@[simp] theorem State.withCommand_outB (w : Word) :
    (s.withCommand w).outB = s.outB := rfl
@[simp] theorem State.withCommand_hostData (w : Word) :
    (s.withCommand w).hostData = s.hostData := rfl
@[simp] theorem State.withCommand_epoch (w : Word) :
    (s.withCommand w).epoch = s.epoch := rfl
@[simp] theorem State.withCommand_draws (w : Word) :
    (s.withCommand w).draws = s.draws := rfl
@[simp] theorem State.withCommand_inputs (w : Word) :
    (s.withCommand w).inputs = (if s.inputs = [] then [] else .wait :: s.inputs) := rfl

@[simp] theorem State.withFetchWord_cmd (nbits w : Nat) :
    (s.withFetchWord nbits w).cmd = commandWord nbits w := rfl
@[simp] theorem State.withFetchWord_lenA (nbits w : Nat) :
    (s.withFetchWord nbits w).lenA = s.lenA := rfl
@[simp] theorem State.withFetchWord_lenB (nbits w : Nat) :
    (s.withFetchWord nbits w).lenB = s.lenB := rfl
@[simp] theorem State.withFetchWord_rsp (nbits w : Nat) :
    (s.withFetchWord nbits w).rsp = s.rsp := rfl
@[simp] theorem State.withFetchWord_errPos (nbits w : Nat) :
    (s.withFetchWord nbits w).errPos = s.errPos := rfl
@[simp] theorem State.withFetchWord_result (nbits w : Nat) :
    (s.withFetchWord nbits w).result = s.result := rfl
@[simp] theorem State.withFetchWord_lenOA (nbits w : Nat) :
    (s.withFetchWord nbits w).lenOA = s.lenOA := rfl
@[simp] theorem State.withFetchWord_lenOB (nbits w : Nat) :
    (s.withFetchWord nbits w).lenOB = s.lenOB := rfl
@[simp] theorem State.withFetchWord_busy (nbits w : Nat) :
    (s.withFetchWord nbits w).busy = true := rfl
@[simp] theorem State.withFetchWord_inA (nbits w : Nat) :
    (s.withFetchWord nbits w).inA = s.inA := rfl
@[simp] theorem State.withFetchWord_inB (nbits w : Nat) :
    (s.withFetchWord nbits w).inB = s.inB := rfl
@[simp] theorem State.withFetchWord_outA (nbits w : Nat) :
    (s.withFetchWord nbits w).outA = s.outA := rfl
@[simp] theorem State.withFetchWord_outB (nbits w : Nat) :
    (s.withFetchWord nbits w).outB = s.outB := rfl
@[simp] theorem State.withFetchWord_hostData (nbits w : Nat) :
    (s.withFetchWord nbits w).hostData = s.hostData := rfl
@[simp] theorem State.withFetchWord_epoch (nbits w : Nat) :
    (s.withFetchWord nbits w).epoch = s.epoch := rfl
@[simp] theorem State.withFetchWord_draws (nbits w : Nat) :
    (s.withFetchWord nbits w).draws = s.draws := rfl
@[simp] theorem State.withFetchWord_inputs (nbits w : Nat) :
    (s.withFetchWord nbits w).inputs = (if s.inputs = [] then [] else .wait :: s.inputs) := rfl

@[simp] theorem State.afterOk_cmd (var : Variant) (result : Word) (outA outB : List Byte) :
    (s.afterOk var result outA outB).cmd = s.cmd := rfl
@[simp] theorem State.afterOk_lenA (var : Variant) (result : Word) (outA outB : List Byte) :
    (s.afterOk var result outA outB).lenA = s.lenA := rfl
@[simp] theorem State.afterOk_lenB (var : Variant) (result : Word) (outA outB : List Byte) :
    (s.afterOk var result outA outB).lenB = s.lenB := rfl
@[simp] theorem State.afterOk_rsp (var : Variant) (result : Word) (outA outB : List Byte) :
    (s.afterOk var result outA outB).rsp = (if var = .b then 0x10 else 0x00) := rfl
@[simp] theorem State.afterOk_errPos (var : Variant) (result : Word) (outA outB : List Byte) :
    (s.afterOk var result outA outB).errPos = 0 := rfl
@[simp] theorem State.afterOk_result (var : Variant) (result : Word) (outA outB : List Byte) :
    (s.afterOk var result outA outB).result = result := rfl
@[simp] theorem State.afterOk_lenOA (var : Variant) (result : Word) (outA outB : List Byte) :
    (s.afterOk var result outA outB).lenOA = BitVec.ofNat 32 outA.length := rfl
@[simp] theorem State.afterOk_lenOB (var : Variant) (result : Word) (outA outB : List Byte) :
    (s.afterOk var result outA outB).lenOB = BitVec.ofNat 32 outB.length := rfl
@[simp] theorem State.afterOk_busy (var : Variant) (result : Word) (outA outB : List Byte) :
    (s.afterOk var result outA outB).busy = false := rfl
@[simp] theorem State.afterOk_inA (var : Variant) (result : Word) (outA outB : List Byte) :
    (s.afterOk var result outA outB).inA = s.inA := rfl
@[simp] theorem State.afterOk_inB (var : Variant) (result : Word) (outA outB : List Byte) :
    (s.afterOk var result outA outB).inB = s.inB := rfl
@[simp] theorem State.afterOk_outA (var : Variant) (result : Word) (outA outB : List Byte) :
    (s.afterOk var result outA outB).outA = Memory.ofUnits outA := rfl
@[simp] theorem State.afterOk_outB (var : Variant) (result : Word) (outA outB : List Byte) :
    (s.afterOk var result outA outB).outB = Memory.ofUnits outB := rfl
@[simp] theorem State.afterOk_hostData (var : Variant) (result : Word) (outA outB : List Byte) :
    (s.afterOk var result outA outB).hostData = s.hostData := rfl
@[simp] theorem State.afterOk_epoch (var : Variant) (result : Word) (outA outB : List Byte) :
    (s.afterOk var result outA outB).epoch = s.epoch := rfl
@[simp] theorem State.afterOk_draws (var : Variant) (result : Word) (outA outB : List Byte) :
    (s.afterOk var result outA outB).draws = s.draws := rfl
@[simp] theorem State.afterOk_inputs (var : Variant) (result : Word) (outA outB : List Byte) :
    (s.afterOk var result outA outB).inputs = s.inputs := rfl

@[simp] theorem State.afterError_cmd (code : BitVec 4) (pos : Nat) :
    (s.afterError code pos).cmd = s.cmd := rfl
@[simp] theorem State.afterError_lenA (code : BitVec 4) (pos : Nat) :
    (s.afterError code pos).lenA = s.lenA := rfl
@[simp] theorem State.afterError_lenB (code : BitVec 4) (pos : Nat) :
    (s.afterError code pos).lenB = s.lenB := rfl
@[simp] theorem State.afterError_rsp (code : BitVec 4) (pos : Nat) :
    (s.afterError code pos).rsp = code.setWidth 32 := rfl
@[simp] theorem State.afterError_errPos (code : BitVec 4) (pos : Nat) :
    (s.afterError code pos).errPos = BitVec.ofNat 32 pos := rfl
@[simp] theorem State.afterError_result (code : BitVec 4) (pos : Nat) :
    (s.afterError code pos).result = 0 := rfl
@[simp] theorem State.afterError_lenOA (code : BitVec 4) (pos : Nat) :
    (s.afterError code pos).lenOA = 0 := rfl
@[simp] theorem State.afterError_lenOB (code : BitVec 4) (pos : Nat) :
    (s.afterError code pos).lenOB = 0 := rfl
@[simp] theorem State.afterError_busy (code : BitVec 4) (pos : Nat) :
    (s.afterError code pos).busy = false := rfl
@[simp] theorem State.afterError_inA (code : BitVec 4) (pos : Nat) :
    (s.afterError code pos).inA = s.inA := rfl
@[simp] theorem State.afterError_inB (code : BitVec 4) (pos : Nat) :
    (s.afterError code pos).inB = s.inB := rfl
@[simp] theorem State.afterError_outA (code : BitVec 4) (pos : Nat) :
    (s.afterError code pos).outA = [] := rfl
@[simp] theorem State.afterError_outB (code : BitVec 4) (pos : Nat) :
    (s.afterError code pos).outB = [] := rfl
@[simp] theorem State.afterError_hostData (code : BitVec 4) (pos : Nat) :
    (s.afterError code pos).hostData = s.hostData := rfl
@[simp] theorem State.afterError_epoch (code : BitVec 4) (pos : Nat) :
    (s.afterError code pos).epoch = s.epoch := rfl
@[simp] theorem State.afterError_draws (code : BitVec 4) (pos : Nat) :
    (s.afterError code pos).draws = s.draws := rfl
@[simp] theorem State.afterError_inputs (code : BitVec 4) (pos : Nat) :
    (s.afterError code pos).inputs = s.inputs := rfl

end Sys2Proof.Machine
end

