-- ==== Sys2Proof/Laws/Memory.lean ====
section
/-!
SUPPORT. The laws of the buffers: a read after a write, and that every buffer operation keeps the
canonical form.
-/

namespace Sys2Proof.Machine

@[simp] theorem Memory.read_nil (i : Nat) : Memory.read [] i = none := rfl

theorem Memory.read_write_same (m : Memory) (i : Nat) (v : Byte) : (m.write i v).read i = some v := by
  induction m with
  | nil => simp [Memory.write, Memory.read]
  | cons c rest ih =>
    simp only [Memory.write]
    split
    · simp [Memory.read]
    · split
      · simp [Memory.read]
      · rename_i h
        simp [Memory.read, h, ih]

theorem Memory.read_write_other (m : Memory) (i j : Nat) (v : Byte) (h : j ≠ i) :
    (m.write i v).read j = m.read j := by
  induction m with
  | nil => simp [Memory.write, Memory.read, h.symm]
  | cons c rest ih =>
    simp only [Memory.write]
    split
    · simp [Memory.read, h.symm]
    · split
      · rename_i hc
        simp [Memory.read, hc, h.symm]
      · simp [Memory.read, ih]

/-- Canonical form of a non-empty buffer: the rest is canonical and starts above the first index. -/
theorem Memory.wf_cons (c : Host.Cell) (rest : Memory) :
    Memory.wf (c :: rest) = true ↔ Memory.wf rest = true ∧ ∀ d, rest.head? = some d → c.1 < d.1 := by
  cases rest with
  | nil => simp [Memory.wf]
  | cons d rest => simp [Memory.wf, and_comm]

theorem Memory.head_write (m : Memory) (i : Nat) (v : Byte) (d : Host.Cell)
    (h : (m.write i v).head? = some d) : d.1 = i ∨ m.head? = some d := by
  cases m with
  | nil =>
    simp only [Memory.write, List.head?_cons, Option.some.injEq] at h
    exact .inl (by rw [← h])
  | cons c rest =>
    simp only [Memory.write] at h
    split at h
    · simp only [List.head?_cons, Option.some.injEq] at h
      exact .inl (by rw [← h])
    · split at h
      · simp only [List.head?_cons, Option.some.injEq] at h
        exact .inl (by rw [← h])
      · exact .inr (by simpa using h)

/-- A host write of a unit keeps the canonical form. -/
theorem Memory.wf_write (m : Memory) (i : Nat) (v : Byte) (h : m.wf = true) : (m.write i v).wf = true := by
  induction m with
  | nil => rfl
  | cons c rest ih =>
    obtain ⟨hrest, hhead⟩ := (Memory.wf_cons c rest).mp h
    simp only [Memory.write]
    split
    · rename_i hi
      exact (Memory.wf_cons _ _).mpr ⟨h, fun d hd => by simp at hd; rw [← hd]; exact hi⟩
    · split
      · rename_i hc
        exact (Memory.wf_cons _ _).mpr ⟨hrest, fun d hd => hc ▸ hhead d hd⟩
      · rename_i hlt hne
        refine (Memory.wf_cons _ _).mpr ⟨ih hrest, fun d hd => ?_⟩
        rcases Memory.head_write rest i v d hd with hd | hd
        · omega
        · exact hhead d hd

theorem Memory.read_fromIndex (units : List Byte) (k i : Nat) :
    (Memory.fromIndex k units).read i = if k ≤ i then units[i - k]? else none := by
  induction units generalizing k with
  | nil => simp [Memory.fromIndex]
  | cons v vs ih =>
    simp only [Memory.fromIndex, Memory.read, ih]
    by_cases h : k = i
    · subst h; simp
    · by_cases hle : k ≤ i
      · have hk : k + 1 ≤ i := by omega
        have he : i - k = (i - (k + 1)) + 1 := by omega
        simp [h, hle, hk, he]
      · have hk : ¬ k + 1 ≤ i := by omega
        simp [h, hle, hk]

/-- A whole sequence laid out reads back unit by unit, and nothing beyond it (R36, R37). -/
theorem Memory.read_ofUnits (units : List Byte) (i : Nat) : (Memory.ofUnits units).read i = units[i]? := by
  simp [Memory.ofUnits, Memory.read_fromIndex]

theorem Memory.wf_fromIndex (units : List Byte) (k : Nat) : (Memory.fromIndex k units).wf = true := by
  induction units generalizing k with
  | nil => rfl
  | cons v vs ih =>
    refine (Memory.wf_cons _ _).mpr ⟨ih (k + 1), fun d hd => ?_⟩
    cases vs with
    | nil => simp [Memory.fromIndex] at hd
    | cons u us =>
      simp only [Memory.fromIndex, List.head?_cons, Option.some.injEq] at hd
      rw [← hd]
      exact Nat.lt_succ_self k

/-- Writing a whole sequence gives the canonical form. -/
theorem Memory.wf_ofUnits (units : List Byte) : (Memory.ofUnits units).wf = true :=
  Memory.wf_fromIndex units 0

theorem Memory.isSome_read_ofUnits (units : List Byte) (i : Nat) :
    ((Memory.ofUnits units).read i).isSome = true ↔ i < units.length := by
  simp [Memory.read_ofUnits]

theorem Memory.fromIndex_inj (a b : List Byte) (k : Nat) (h : Memory.fromIndex k a = Memory.fromIndex k b) :
    a = b := by
  induction a generalizing b k with
  | nil => cases b <;> simp_all [Memory.fromIndex]
  | cons v vs ih =>
    cases b with
    | nil => simp [Memory.fromIndex] at h
    | cons u us =>
      simp only [Memory.fromIndex, List.cons.injEq, Prod.mk.injEq, true_and] at h
      rw [h.1, ih us (k + 1) h.2]

/-- Equal output buffers hold equal sequences. -/
theorem Memory.ofUnits_inj (a b : List Byte) (h : Memory.ofUnits a = Memory.ofUnits b) : a = b :=
  Memory.fromIndex_inj a b 0 h

/-- The buffers after reset are canonical. -/
theorem State.reset_wf : State.reset.inA.wf = true ∧ State.reset.inB.wf = true ∧
    State.reset.outA.wf = true ∧ State.reset.outB.wf = true := ⟨rfl, rfl, rfl, rfl⟩

end Sys2Proof.Machine
end

