-- ==== Sys2Proof/Laws/Ops.lean ====
section
/-!
SUPPORT. What each shared operation can do, said once: the two forms of a response, the three ways an
operation completes, the acts of the host, and one move of the machine.
-/

namespace Sys2Proof.Machine

/-- 128 ≤ CAP (R6). -/
theorem cap_ge : 128 ≤ Config.cap := Nat.le_add_left _ _

/-- CAP < 2^28 (R6). -/
theorem cap_lt : Config.cap < 2 ^ 28 := by
  have h : Config.capDraw % (2 ^ 28 - 128) < 2 ^ 28 - 128 := Nat.mod_lt _ (by decide)
  unfold Config.cap
  omega

theorem packRsp_status (status : BitVec 4) (var : Bool) : (packRsp status var).extractLsb' 0 4 = status := by
  revert status var; decide

theorem packRsp_varOut (status : BitVec 4) (var : Bool) : (packRsp status var).getLsbD 4 = var := by
  revert status var; decide

theorem packRsp_reserved (status : BitVec 4) (var : Bool) : (packRsp status var).extractLsb' 5 27 = 0 := by
  revert status var; decide

theorem packRsp_false (status : BitVec 4) : packRsp status false = status.setWidth 32 := by
  revert status; decide

theorem packRsp_ok (var : Variant) : packRsp statusOk var.bit = if var = .b then 0x10 else 0x00 := by
  cases var <;> decide

/-- The failure response in the terms of the claims (R168). -/
theorem State.fail_eq (s : State) (e : Raise) : s.fail e = s.afterError e.kind.code e.pos := by
  simp [State.fail, State.respond, State.afterError, packRsp_false, Memory.ofUnits, Memory.fromIndex]

/-- The success response in the terms of the claims (R13, R43). -/
theorem State.succeed_eq (s : State) (r : Reply) :
    s.succeed r = s.afterOk r.var (r.result.setWidth 32) r.outA r.outB := by
  simp only [State.succeed, State.respond, State.afterOk, packRsp_ok]

theorem ErrorKind.code_ne_zero (k : ErrorKind) : k.code ≠ 0#4 := by cases k <;> decide

@[simp] theorem State.afterError_status (s : State) (code : BitVec 4) (pos : Nat) :
    (s.afterError code pos).status = code := by
  revert code; intro code
  simp only [State.status, State.afterError_rsp]
  revert code; decide

@[simp] theorem State.afterError_varOut (s : State) (code : BitVec 4) (pos : Nat) :
    (s.afterError code pos).varOut = false := by
  simp only [State.varOut, State.afterError_rsp]
  revert code; decide

@[simp] theorem State.afterOk_status (s : State) (var : Variant) (result : Word) (a b : List Byte) :
    (s.afterOk var result a b).status = 0 := by
  simp only [State.status, State.afterOk_rsp]
  cases var <;> decide

@[simp] theorem State.afterOk_varOut (s : State) (var : Variant) (result : Word) (a b : List Byte) :
    (s.afterOk var result a b).varOut = var.bit := by
  simp only [State.varOut, State.afterOk_rsp]
  cases var <;> decide

/-- An operation ends in one of two ways (R150). -/
theorem State.finish_cases (s : State) (r : Except Raise Reply) :
    (∃ e, r = .error e ∧ s.finish r = s.afterError e.kind.code e.pos) ∨
    (∃ p, r = .ok p ∧ s.finish r = s.afterOk p.var (p.result.setWidth 32) p.outA p.outB) := by
  cases r with
  | error e => exact .inl ⟨e, rfl, State.fail_eq s e⟩
  | ok p => exact .inr ⟨p, rfl, State.succeed_eq s p⟩

theorem State.finish_raise (s : State) (e : Raise) : s.finish (.error e) = s.afterError e.kind.code e.pos :=
  State.fail_eq s e

theorem State.finish_error (s : State) (k : ErrorKind) (pos : Nat) :
    s.finish (.error ⟨k, pos⟩) = s.afterError k.code pos := State.fail_eq s ⟨k, pos⟩

theorem State.finish_ok (s : State) (p : Reply) :
    s.finish (.ok p) = s.afterOk p.var (p.result.setWidth 32) p.outA p.outB := State.succeed_eq s p

/-- How an operation that reads IN_A completes: R56 item 5, else its rule. -/
theorem completeA_eq (s : State) (f : List Byte → Except Raise Reply) :
    completeA s f = .next (s.finish
      (if s.lenA.toNat ≤ Config.cap then f s.unitsA else .error illegalCommand)) := by
  unfold completeA; split <;> rfl

/-- How an operation that reads IN_A and IN_B completes: R56 item 5, else its rule. -/
theorem completeAB_eq (s : State) (f : List Byte → List Byte → Except Raise Reply) :
    completeAB s f = .next (s.finish
      (if s.lenA.toNat ≤ Config.cap ∧ s.lenB.toNat ≤ Config.cap then f s.unitsA s.unitsB
        else .error illegalCommand)) := by
  unfold completeAB; split <;> rfl

/-- What the rule of an operation gives on the sequences it reads (R80 to R132). -/
def rule (i : Instr) (s : State) : Except Raise Reply :=
  match i with
  | .csfwd arg => csfwdReply arg
  | .csinv arg => csinvReply arg
  | .convert pad fromBits toBits => convertReply pad fromBits toBits s.unitsA
  | .expand => expandReply s.unitsA
  | .polymod => polymodReply s.unitsA
  | .ckcreate var => ckcreateReply var s.unitsA s.unitsB
  | .ckverify => ckverifyReply s.unitsA s.unitsB
  | .encode var => encodeReply var s.unitsA s.unitsB
  | .decode => decodeReply s.unitsA
  | .encodeb var => encodebReply var s.unitsA s.unitsB
  | .decodeb var => decodebReply var s.unitsA s.unitsB

/-- What an operation ends with: its rule's result where its widths and lengths are legal, else
IllegalCommand (R56 items 4 and 5). -/
def reply (i : Instr) (s : State) : Except Raise Reply :=
  if i.wellFormed = true ∧ lengthsLegal i s then rule i s else .error illegalCommand

theorem reply_legal (i : Instr) (s : State) (hw : i.wellFormed = true) (hl : lengthsLegal i s) :
    reply i s = rule i s := if_pos ⟨hw, hl⟩

theorem reply_illegal (i : Instr) (s : State) (h : ¬ (i.wellFormed = true ∧ lengthsLegal i s)) :
    reply i s = .error illegalCommand := if_neg h

/-- Every operation completes with what its rule gives: the one case analysis over exec that later
proofs need. -/
theorem exec_eq (i : Instr) (s : State) : exec i s = .next (s.finish (reply i s)) := by
  cases i with
  | csfwd arg =>
    simp [exec, execCsfwd, completeNone, reply, rule, Instr.wellFormed, lengthsLegal, readsA, readsB]
  | csinv arg =>
    simp [exec, execCsinv, completeNone, reply, rule, Instr.wellFormed, lengthsLegal, readsA, readsB]
  | convert pad f t =>
    by_cases hw : (legalWidth f && legalWidth t) = true
    · simp [exec, execConvert, hw, completeA_eq, reply, rule, Instr.wellFormed, lengthsLegal, readsA, readsB]
    · simp [exec, execConvert, hw, completeNone, reply, Instr.wellFormed, State.finish]
  | expand => simp [exec, execExpand, completeA_eq, reply, rule, Instr.wellFormed, lengthsLegal, readsA, readsB]
  | polymod => simp [exec, execPolymod, completeA_eq, reply, rule, Instr.wellFormed, lengthsLegal, readsA, readsB]
  | ckcreate var =>
    simp [exec, execCkcreate, completeAB_eq, reply, rule, Instr.wellFormed, lengthsLegal, readsA, readsB]
  | ckverify =>
    simp [exec, execCkverify, completeAB_eq, reply, rule, Instr.wellFormed, lengthsLegal, readsA, readsB]
  | encode var =>
    simp [exec, execEncode, completeAB_eq, reply, rule, Instr.wellFormed, lengthsLegal, readsA, readsB]
  | decode => simp [exec, execDecode, completeA_eq, reply, rule, Instr.wellFormed, lengthsLegal, readsA, readsB]
  | encodeb var =>
    simp [exec, execEncodeb, completeAB_eq, reply, rule, Instr.wellFormed, lengthsLegal, readsA, readsB]
  | decodeb var =>
    simp [exec, execDecodeb, completeAB_eq, reply, rule, Instr.wellFormed, lengthsLegal, readsA, readsB]

/-- An operation that ends with an error leaves the failure response (R168). -/
theorem exec_error (i : Instr) (s : State) (k : ErrorKind) (pos : Nat) (h : reply i s = .error ⟨k, pos⟩) :
    exec i s = .next (s.afterError k.code pos) := by rw [exec_eq, h, State.finish_error]

/-- An operation that returns leaves its result (R13, R43). -/
theorem exec_ok (i : Instr) (s : State) (p : Reply) (h : reply i s = .ok p) :
    exec i s = .next (s.afterOk p.var (p.result.setWidth 32) p.outA p.outB) := by
  rw [exec_eq, h, State.finish_ok]

/-- A completion is one of the two responses, on the state it started from. -/
theorem exec_cases (i : Instr) (s t : State) (h : exec i s = .next t) :
    (∃ e, reply i s = .error e ∧ t = s.afterError e.kind.code e.pos) ∨
    (∃ p, reply i s = .ok p ∧ t = s.afterOk p.var (p.result.setWidth 32) p.outA p.outB) := by
  rw [exec_eq, Host.Outcome.next.injEq] at h
  subst h
  exact State.finish_cases s (reply i s)

/-- What a completion of the command in CMD ends with. -/
theorem State.complete_eq (s : State) : s.complete = .next (s.finish
    (match decodeCommand s.cmd with
     | .ok i => reply i s
     | .error _ => .error illegalCommand)) := by
  unfold State.complete
  cases decodeCommand s.cmd with
  | error r => rfl
  | ok i => exact exec_eq i s

theorem State.finish_busy (s : State) (r : Except Raise Reply) : (s.finish r).busy = false := by
  rcases State.finish_cases s r with ⟨_, _, h⟩ | ⟨_, _, h⟩ <;> rw [h] <;> rfl

theorem State.finish_inputs (s : State) (r : Except Raise Reply) : (s.finish r).inputs = s.inputs := by
  rcases State.finish_cases s r with ⟨_, _, h⟩ | ⟨_, _, h⟩ <;> rw [h] <;> rfl

/-- What the engine's completion can do: the response of the selected operation, or IllegalCommand. -/
theorem State.complete_cases (s t : State) (h : s.complete = .next t) :
    (∃ i, decodeCommand s.cmd = .ok i ∧ exec i s = .next t) ∨
    (∃ r, decodeCommand s.cmd = .error r ∧ t = s.afterError ErrorKind.illegalCommand.code 0) := by
  unfold State.complete at h
  split at h
  · rename_i i hi
    exact .inl ⟨i, hi, h⟩
  · rename_i r hr
    rw [Host.Outcome.next.injEq, State.fail_eq] at h
    exact .inr ⟨r, hr, h.symm⟩

theorem State.whileIdle_next (s t u : State) (h : s.whileIdle t = .next u) : s.busy = false ∧ u = t := by
  unfold State.whileIdle at h
  split at h
  · cases h
  · rename_i hb
    exact ⟨by simpa using hb, by simpa using h.symm⟩

theorem withinCapacity_next (k c : Nat) (r : Host.Outcome State Fault Refusal) (u : State)
    (h : withinCapacity k c r = .next u) : k < c ∧ r = .next u := by
  unfold withinCapacity at h
  split at h
  · rename_i hk; exact ⟨hk, h⟩
  · cases h

/-- A host read of a register changes the host's value and the draws, nothing else. -/
theorem State.readReg_cases (s : State) (r : Reg) :
    ∃ v d, s.readReg r = { s with hostData := v, draws := d } := by
  unfold State.readReg
  split
  · exact ⟨_, _, rfl⟩
  · exact ⟨_, s.draws, rfl⟩

/-- A host read of an output unit changes the host's value and the draws, nothing else. -/
theorem State.readOut_cases (s : State) (m : Memory) (k : Nat) :
    ∃ v d, s.readOut m k = { s with hostData := v, draws := d } := by
  unfold State.readOut
  split
  · exact ⟨_, s.draws, rfl⟩
  · exact ⟨_, _, rfl⟩

/-- What an act of the host can do. -/
theorem State.hostAct_cases (s t : State) (e : HostEvent) (h : s.hostAct e = .next t) :
    (∃ w, e = .writeCmd w ∧ s.busy = false ∧ t = s.issue w) ∨
    (∃ n, e = .writeLenA n ∧ s.busy = false ∧ t = { s with lenA := n }) ∨
    (∃ n, e = .writeLenB n ∧ s.busy = false ∧ t = { s with lenB := n }) ∨
    (∃ k v, e = .writeInA k v ∧ k < Config.cap ∧ s.busy = false ∧ t = { s with inA := s.inA.write k v }) ∨
    (∃ k v, e = .writeInB k v ∧ k < Config.cap ∧ s.busy = false ∧ t = { s with inB := s.inB.write k v }) ∨
    (∃ v d, t = { s with hostData := v, draws := d }) ∨
    (e = .reset ∧ t = s.resetEvent) := by
  cases e with
  | writeCmd w => exact .inl ⟨w, rfl, State.whileIdle_next _ _ _ h⟩
  | writeLenA n => exact .inr (.inl ⟨n, rfl, State.whileIdle_next _ _ _ h⟩)
  | writeLenB n => exact .inr (.inr (.inl ⟨n, rfl, State.whileIdle_next _ _ _ h⟩))
  | writeInA k v =>
    obtain ⟨hk, h⟩ := withinCapacity_next _ _ _ _ h
    exact .inr (.inr (.inr (.inl ⟨k, v, rfl, hk, State.whileIdle_next _ _ _ h⟩)))
  | writeInB k v =>
    obtain ⟨hk, h⟩ := withinCapacity_next _ _ _ _ h
    exact .inr (.inr (.inr (.inr (.inl ⟨k, v, rfl, hk, State.whileIdle_next _ _ _ h⟩))))
  | writeResponse r v =>
    refine .inr (.inr (.inr (.inr (.inr (.inl ⟨s.hostData, s.draws, ?_⟩)))))
    simpa [State.hostAct] using h.symm
  | readReg r =>
    obtain ⟨v, d, hr⟩ := State.readReg_cases s r
    refine .inr (.inr (.inr (.inr (.inr (.inl ⟨v, d, ?_⟩)))))
    simpa [State.hostAct, hr] using h.symm
  | readOutA k =>
    obtain ⟨_, h⟩ := withinCapacity_next _ _ _ _ h
    obtain ⟨v, d, hr⟩ := State.readOut_cases s s.outA k
    refine .inr (.inr (.inr (.inr (.inr (.inl ⟨v, d, ?_⟩)))))
    simpa [hr] using h.symm
  | readOutB k =>
    obtain ⟨_, h⟩ := withinCapacity_next _ _ _ _ h
    obtain ⟨v, d, hr⟩ := State.readOut_cases s s.outB k
    refine .inr (.inr (.inr (.inr (.inr (.inl ⟨v, d, ?_⟩)))))
    simpa [hr] using h.symm
  | wait =>
    refine .inr (.inr (.inr (.inr (.inr (.inl ⟨s.hostData, s.draws, ?_⟩)))))
    simpa [State.hostAct] using h.symm
  | reset =>
    refine .inr (.inr (.inr (.inr (.inr (.inr ⟨rfl, ?_⟩)))))
    simpa [State.hostAct] using h.symm

theorem State.engineTurn_busy (s : State) (h : s.busy = true) : s.engineTurn = s.complete := by
  simp [State.engineTurn, h]

theorem State.engineTurn_idle (s : State) (h : s.busy = false) : s.engineTurn = .next s := by
  simp [State.engineTurn, h]

theorem step_nil (s : State) (h : s.inputs = []) : step s = s.engineTurn := by
  simp [step, State.advance, h]

theorem step_wait (s : State) (rest : List HostEvent) (h : s.inputs = .wait :: rest) :
    step s = State.engineTurn { s with inputs := rest } := by
  simp [step, State.advance, h]

theorem step_act (s : State) (e : HostEvent) (rest : List HostEvent) (h : s.inputs = e :: rest)
    (he : e ≠ .wait) : step s = State.hostAct { s with inputs := rest } e := by
  unfold step State.advance
  split
  · rename_i h'; rw [h] at h'; cases h'
  · rename_i r h'; rw [h] at h'; cases h'; exact absurd rfl he
  · rename_i e' r _ h'; rw [h] at h'; cases h'; rfl

/-- What a step can do, once and for all: an act of the host on the state with that act taken off, or
the engine's completion, or nothing (R14). -/
theorem step_cases (s t : State) (h : step s = .next t) :
    ∃ u, (u = s ∧ s.inputs = [] ∨ ∃ e rest, s.inputs = e :: rest ∧ u = { s with inputs := rest }) ∧
      ((∃ e, u.hostAct e = .next t) ∨ (u.busy = true ∧ u.complete = .next t) ∨ t = u) := by
  have engine : ∀ u : State, u.engineTurn = .next t → (u.busy = true ∧ u.complete = .next t) ∨ t = u := by
    intro u hu
    cases hb : u.busy with
    | true => exact .inl ⟨rfl, by rw [← State.engineTurn_busy u hb]; exact hu⟩
    | false =>
      rw [State.engineTurn_idle u hb, Host.Outcome.next.injEq] at hu
      exact .inr hu.symm
  cases hi : s.inputs with
  | nil =>
    rw [step_nil s hi] at h
    exact ⟨s, .inl ⟨rfl, rfl⟩, .inr (engine s h)⟩
  | cons e rest =>
    refine ⟨{ s with inputs := rest }, .inr ⟨e, rest, rfl, rfl⟩, ?_⟩
    by_cases he : e = .wait
    · subst he
      rw [step_wait s rest hi] at h
      exact .inr (engine _ h)
    · rw [step_act s e rest hi he] at h
      exact .inl ⟨e, h⟩

end Sys2Proof.Machine
end

