-- ==== Sys2Proof/Laws/Operands.lean ====
section
/-!
SUPPORT. The operand forms: what a sequence read from a buffer holds, and what the domain test can do.
-/

namespace Sys2Proof.Machine

theorem State.length_unitsA (s : State) : s.unitsA.length = s.lenA.toNat := by simp [State.unitsA]
theorem State.length_unitsB (s : State) : s.unitsB.length = s.lenB.toNat := by simp [State.unitsB]

theorem State.getElem?_unitsA (s : State) (k : Nat) (h : k < s.lenA.toNat) :
    s.unitsA[k]? = some (s.unitA k) := by simp [State.unitsA, h]

theorem State.getElem?_unitsB (s : State) (k : Nat) (h : k < s.lenB.toNat) :
    s.unitsB[k]? = some (s.unitB k) := by simp [State.unitsB, h]

theorem State.unitsA_congr (s u : State) (hl : s.lenA = u.lenA)
    (h : ∀ k, k < s.lenA.toNat → s.unitA k = u.unitA k) : s.unitsA = u.unitsA := by
  unfold State.unitsA
  rw [← hl]
  exact List.map_congr_left fun k hk => h k (List.mem_range.mp hk)

theorem State.unitsB_congr (s u : State) (hl : s.lenB = u.lenB)
    (h : ∀ k, k < s.lenB.toNat → s.unitB k = u.unitB k) : s.unitsB = u.unitsB := by
  unfold State.unitsB
  rw [← hl]
  exact List.map_congr_left fun k hk => h k (List.mem_range.mp hk)

theorem firstAbove31_groups (units : List Byte) (i : Nat) (h : areGroups units) : firstAbove31 i units = none := by
  induction units generalizing i with
  | nil => rfl
  | cons v vs ih =>
    have hv : ¬ 31 < v.toNat := Nat.not_lt.mpr (h v List.mem_cons_self)
    simp only [firstAbove31, hv, if_false]
    exact ih (i + 1) fun u hu => h u (List.mem_cons_of_mem v hu)

theorem firstAbove31_first (before after : List Byte) (v : Byte) (i : Nat) (h : areGroups before)
    (hv : 31 < v.toNat) : firstAbove31 i (before ++ v :: after) = some (i + before.length) := by
  induction before generalizing i with
  | nil => simp [firstAbove31, hv]
  | cons u us ih =>
    have hu : ¬ 31 < u.toNat := Nat.not_lt.mpr (h u List.mem_cons_self)
    simp only [List.cons_append, firstAbove31, hu, if_false, List.length_cons]
    rw [ih (i + 1) fun w hw => h w (List.mem_cons_of_mem u hw)]
    congr 1
    omega

theorem firstAbove31_none (units : List Byte) (i : Nat) (h : firstAbove31 i units = none) : areGroups units := by
  induction units generalizing i with
  | nil => intro v hv; cases hv
  | cons v vs ih =>
    simp only [firstAbove31] at h
    split at h
    · cases h
    · rename_i hv
      intro u hu
      rcases List.mem_cons.mp hu with hu | hu
      · subst hu; omega
      · exact ih (i + 1) h u hu

/-- The domain test passes 5-bit groups on (R166). -/
theorem checkGroups_groups (units : List Byte) (r : Except Raise Reply) (h : areGroups units) :
    checkGroups units r = r := by
  simp [checkGroups, firstAbove31_groups units 0 h]

/-- The domain test stops at the first unit above 31 (R166). -/
theorem checkGroups_first (before after : List Byte) (v : Byte) (r : Except Raise Reply)
    (h : areGroups before) (hv : 31 < v.toNat) :
    checkGroups (before ++ v :: after) r = .error ⟨.operandOutOfDomain, before.length⟩ := by
  simp [checkGroups, firstAbove31_first before after v 0 h hv]

/-- What the domain test can do (R166). -/
theorem checkGroups_cases (units : List Byte) (r : Except Raise Reply) :
    (∃ k, checkGroups units r = .error ⟨.operandOutOfDomain, k⟩) ∨
    (areGroups units ∧ checkGroups units r = r) := by
  unfold checkGroups
  split
  · rename_i k _; exact .inl ⟨k, rfl⟩
  · rename_i h; exact .inr ⟨firstAbove31_none units 0 h, rfl⟩
end Sys2Proof.Machine
end

