-- ==== Sys2Proof/Laws/Checksum.lean ====
section
/-!
SUPPORT. The checksum engine: a polymod step is linear over GF(2), and a created checksum folds back to its constant (R102 to R104).
-/

namespace Sys2Proof.Machine

/-- The XOR of the constants selected by the bits of `top`, from constant `i` on. -/
def genMix (top : BitVec 5) : (i : Nat) → List Poly → Poly
  | _, [] => 0
  | i, g :: gs => (if top.getLsbD i then g else 0) ^^^ genMix top (i + 1) gs

theorem xorGen_eq (top : BitVec 5) (i : Nat) (gs : List Poly) (chk : Poly) :
    xorGen top i gs chk = chk ^^^ genMix top i gs := by
  induction gs generalizing i chk with
  | nil => simp [xorGen, genMix]
  | cons g gs ih =>
    simp only [xorGen, genMix, ih]
    split
    · rw [BitVec.xor_assoc]
    · simp

theorem xor_left_comm (a b c : Poly) : a ^^^ (b ^^^ c) = b ^^^ (a ^^^ c) := by
  rw [← BitVec.xor_assoc, BitVec.xor_comm a b, BitVec.xor_assoc]

theorem genMix_xor (a b : BitVec 5) (i : Nat) (gs : List Poly) :
    genMix (a ^^^ b) i gs = genMix a i gs ^^^ genMix b i gs := by
  induction gs generalizing i with
  | nil => simp [genMix]
  | cons g gs ih =>
    simp only [genMix, ih, BitVec.getLsbD_xor]
    cases a.getLsbD i <;> cases b.getLsbD i
    · simp
    · simp [xor_left_comm]
    · simp [BitVec.xor_assoc]
    · rw [if_pos rfl, BitVec.xor_assoc, xor_left_comm (genMix a (i + 1) gs), ← BitVec.xor_assoc g g]
      simp

/-- R102's step without the new value: what the accumulator itself contributes. -/
def polymodShift (chk : Poly) : Poly :=
  ((chk &&& 0x1FFFFFF) <<< 5) ^^^ genMix (chk.extractLsb' 25 5) 0 gen

theorem or_value_eq_xor (x : Poly) (v : Byte) (hv : v.toNat ≤ 31) :
    (x <<< 5) ||| v.setWidth 30 = (x <<< 5) ^^^ v.setWidth 30 := by
  ext i hi
  simp only [BitVec.getElem_or, BitVec.getElem_xor, BitVec.getElem_shiftLeft, BitVec.getElem_setWidth]
  by_cases h : i < 5
  · simp [h]
  · have : v.getLsbD i = false := by
      rw [BitVec.getLsbD]
      exact Nat.testBit_lt_two_pow (lt_of_le_of_lt hv (lt_of_lt_of_le (by decide : 31 < 2 ^ 5)
        (Nat.pow_le_pow_right (by decide) (by omega))))
    simp [h, this]

/-- For a value in 0 to 31, OR in and XOR in are the same (R102, C5), so a step is the accumulator's own
contribution XOR the value. -/
theorem polymodStep_eq (chk : Poly) (v : Byte) (hv : v.toNat ≤ 31) :
    polymodStep chk v = polymodShift chk ^^^ v.setWidth 30 := by
  rw [polymodStep, xorGen_eq, or_value_eq_xor _ v hv, polymodShift]
  simp only [BitVec.xor_assoc, BitVec.xor_comm (v.setWidth 30)]

/-- The accumulator's own contribution is linear over GF(2). -/
theorem polymodShift_xor (a b : Poly) : polymodShift (a ^^^ b) = polymodShift a ^^^ polymodShift b := by
  have h1 : (a ^^^ b) &&& 0x1FFFFFF = (a &&& 0x1FFFFFF) ^^^ (b &&& 0x1FFFFFF) := by
    ext i hi; simp [Bool.and_xor_distrib_right]
  have h2 : (a ^^^ b).extractLsb' 25 5 = a.extractLsb' 25 5 ^^^ b.extractLsb' 25 5 := by
    ext i hi; simp
  rw [polymodShift, polymodShift, polymodShift, h1, h2, BitVec.shiftLeft_xor_distrib, genMix_xor]
  simp only [BitVec.xor_assoc, xor_left_comm ((b &&& 0x1FFFFFF) <<< 5)]

/-- Folding values in is linear over GF(2) in the accumulator and the values together: folding them
from 0 gives what they add to folding as many zeros. -/
theorem foldl_polymodStep_xor (chk d : Poly) (values : List Byte) (h : areGroups values) :
    values.foldl polymodStep (chk ^^^ d) =
      (List.replicate values.length (0 : Byte)).foldl polymodStep chk ^^^ values.foldl polymodStep d := by
  induction values generalizing chk d with
  | nil => rfl
  | cons v vs ih =>
    have hv := h v List.mem_cons_self
    simp only [List.foldl_cons, List.length_cons, List.replicate_succ]
    have hzero : polymodStep chk 0 = polymodShift chk := by
      rw [polymodStep_eq chk 0 (by decide)]; simp
    rw [polymodStep_eq _ v hv, polymodStep_eq d v hv, hzero, polymodShift_xor, BitVec.xor_assoc]
    exact ih _ _ fun u hu => h u (List.mem_cons_of_mem v hu)

/-- An accumulator below 2^25 selects no constant: the step is shift and add. -/
theorem polymodStep_small (chk : Poly) (v : Byte) (hc : chk.toNat < 2 ^ 25) (hv : v.toNat ≤ 31) :
    (polymodStep chk v).toNat = chk.toNat * 32 + v.toNat := by
  have htop : chk.extractLsb' 25 5 = 0 := by
    apply BitVec.eq_of_toNat_eq
    rw [BitVec.extractLsb'_toNat, Nat.shiftRight_eq_div_pow, Nat.div_eq_of_lt hc]
    rfl
  have hmix : genMix 0 0 gen = 0 := by decide
  rw [polymodStep, xorGen_eq, htop, hmix, show ∀ x : Poly, x ^^^ 0 = x from fun _ => BitVec.xor_zero, BitVec.toNat_or, BitVec.toNat_shiftLeft,
    BitVec.toNat_and, BitVec.toNat_setWidth]
  rw [show BitVec.toNat (0x1FFFFFF : Poly) = 2 ^ 25 - 1 from rfl, Nat.and_two_pow_sub_one_eq_mod, Nat.mod_eq_of_lt hc,
    Nat.mod_eq_of_lt (show v.toNat < 2 ^ 30 by omega), Nat.shiftLeft_eq,
    Nat.mod_eq_of_lt (show chk.toNat * 2 ^ 5 < 2 ^ 30 by omega), Nat.mul_comm,
    ← Nat.two_pow_add_eq_or_of_lt (show v.toNat < 2 ^ 5 by omega)]
  omega

theorem splitGroups_eq (m : Poly) : splitGroups m =
    [m.toNat / 2 ^ 25 % 32, m.toNat / 2 ^ 20 % 32, m.toNat / 2 ^ 15 % 32, m.toNat / 2 ^ 10 % 32,
      m.toNat / 2 ^ 5 % 32, m.toNat % 32].map (BitVec.ofNat 8) := by
  have h : ∀ k, (m.extractLsb' k 5).setWidth 8 = BitVec.ofNat 8 (m.toNat / 2 ^ k % 32) := by
    intro k
    apply BitVec.eq_of_toNat_eq
    rw [BitVec.toNat_setWidth, BitVec.extractLsb'_toNat, BitVec.toNat_ofNat, Nat.shiftRight_eq_div_pow]
  simp only [splitGroups, List.map_cons, List.map_nil, h, Nat.pow_zero, Nat.div_one]

theorem toNat_group (n : Nat) : (BitVec.ofNat 8 (n % 32)).toNat = n % 32 := by
  rw [BitVec.toNat_ofNat]
  exact Nat.mod_eq_of_lt (lt_of_lt_of_le (Nat.mod_lt n (by decide)) (by decide))

theorem splitGroups_groups (m : Poly) : areGroups (splitGroups m) := by
  intro v hv
  rw [splitGroups_eq] at hv
  obtain ⟨n, hn, rfl⟩ := List.mem_map.mp hv
  have h32 : ∃ k, n = k % 32 := by
    simp only [List.mem_cons, List.not_mem_nil, or_false] at hn
    rcases hn with h | h | h | h | h | h <;> exact ⟨_, h⟩
  obtain ⟨k, rfl⟩ := h32
  rw [toNat_group]
  exact Nat.le_of_lt_succ (Nat.mod_lt k (by decide))

/-- Folding the six groups of a 30-bit value from 0 gives the value back. -/
theorem foldl_splitGroups (m : Poly) : (splitGroups m).foldl polymodStep 0 = m := by
  have hm : m.toNat < 2 ^ 30 := m.isLt
  apply BitVec.eq_of_toNat_eq
  rw [splitGroups_eq]
  simp only [List.map_cons, List.map_nil, List.foldl_cons, List.foldl_nil]
  have hg : ∀ n, (BitVec.ofNat 8 (n % 32)).toNat ≤ 31 := fun n => by
    rw [toNat_group]; exact Nat.le_of_lt_succ (Nat.mod_lt n (by decide))
  have h0 := polymodStep_small 0 _ (by decide) (hg (m.toNat / 2 ^ 25))
  have h1 := polymodStep_small _ _ (by rw [h0, toNat_group]; simp; omega) (hg (m.toNat / 2 ^ 20))
  rw [h0] at h1
  have h2 := polymodStep_small _ _ (by rw [h1, toNat_group, toNat_group]; simp; omega) (hg (m.toNat / 2 ^ 15))
  rw [h1] at h2
  have h3 := polymodStep_small _ _ (by rw [h2]; simp only [toNat_group]; simp; omega) (hg (m.toNat / 2 ^ 10))
  rw [h2] at h3
  have h4 := polymodStep_small _ _ (by rw [h3]; simp only [toNat_group]; simp; omega) (hg (m.toNat / 2 ^ 5))
  rw [h3] at h4
  have h5 := polymodStep_small _ _ (by rw [h4]; simp only [toNat_group]; simp; omega) (hg m.toNat)
  rw [h4] at h5
  rw [h5]
  simp only [toNat_group]
  simp
  omega

/-- The polymod of values followed by a checksum of them is the constant that went into the checksum:
the algebra R104 rests on. -/
theorem polymod_checksum (values : List Byte) (c : Poly) :
    polymod (values ++ splitGroups (polymod (values ++ [0, 0, 0, 0, 0, 0]) ^^^ c)) = c := by
  have hz : polymod (values ++ [0, 0, 0, 0, 0, 0]) =
      (List.replicate 6 (0 : Byte)).foldl polymodStep (polymod values) := by
    simp only [polymod, List.foldl_append]
    rfl
  generalize hm : polymod (values ++ [0, 0, 0, 0, 0, 0]) ^^^ c = m
  have hlin := foldl_polymodStep_xor (polymod values) 0 (splitGroups m) (splitGroups_groups m)
  rw [show polymod values ^^^ 0 = polymod values from BitVec.xor_zero, foldl_splitGroups, show (splitGroups m).length = 6 from rfl, ← hz, ← hm,
    ← BitVec.xor_assoc, BitVec.xor_self, BitVec.zero_xor, hm] at hlin
  rw [polymod, List.foldl_append]
  exact hlin

theorem expand_groups (hrp : List Byte) : areGroups (expand hrp) := by
  have h1 : ∀ c : Byte, ((c &&& 0x7F) >>> 5).toNat ≤ 31 := by decide +kernel
  have h2 : ∀ c : Byte, (c &&& 0x1F).toNat ≤ 31 := by decide +kernel
  intro v hv
  simp only [expand, List.append_assoc, List.mem_append, List.mem_map, List.mem_singleton] at hv
  rcases hv with ⟨c, _, rfl⟩ | rfl | ⟨c, _, rfl⟩
  · exact h1 c
  · decide
  · exact h2 c

end Sys2Proof.Machine
end

