-- ==== Sys2Proof/Laws/Converter.lean ====
section
/-!
SUPPORT. The bit converter: R91's loops on bit lists, and the streams they cut (R32, R91, R92).
-/

namespace Sys2Proof.Machine

/-- The number whose binary digits, most significant first, are the list's. -/
def natOfBits (bits : List Bool) : Nat := bits.foldl (fun n b => 2 * n + b.toNat) 0

theorem unitOfBits_eq (bits : List Bool) : unitOfBits bits = BitVec.ofNat 8 (natOfBits bits) := rfl

theorem foldl_bits (bits : List Bool) (n : Nat) :
    bits.foldl (fun n b => 2 * n + b.toNat) n = n * 2 ^ bits.length + natOfBits bits := by
  unfold natOfBits
  induction bits generalizing n with
  | nil => simp
  | cons b bs ih =>
    simp only [List.foldl_cons, List.length_cons]
    rw [ih (2 * n + b.toNat), ih (2 * 0 + b.toNat), pow_succ]
    ring

theorem natOfBits_append (a b : List Bool) :
    natOfBits (a ++ b) = natOfBits a * 2 ^ b.length + natOfBits b := by
  rw [natOfBits, List.foldl_append, foldl_bits]
  rfl

theorem natOfBits_lt (bits : List Bool) : natOfBits bits < 2 ^ bits.length := by
  induction bits using List.reverseRecOn with
  | nil => simp [natOfBits]
  | append_singleton bs b ih =>
    rw [natOfBits_append]
    cases b <;> simp [natOfBits, pow_succ] at * <;> omega

theorem natOfBits_take (bits : List Bool) (k : Nat) (h : k ≤ bits.length) :
    natOfBits (bits.take k) = natOfBits bits / 2 ^ (bits.length - k) := by
  conv_rhs => rw [← List.take_append_drop k bits]
  rw [natOfBits_append, List.length_append, List.length_drop, List.length_take, Nat.min_eq_left h]
  have hlt := natOfBits_lt (bits.drop k)
  rw [List.length_drop] at hlt
  rw [show k + (bits.length - k) - k = bits.length - k by omega,
    Nat.mul_comm, Nat.mul_add_div (Nat.two_pow_pos _), Nat.div_eq_of_lt hlt, Nat.add_zero]

theorem natOfBits_drop (bits : List Bool) (k : Nat) :
    natOfBits (bits.drop k) = natOfBits bits % 2 ^ (bits.length - k) := by
  conv_rhs => rw [← List.take_append_drop k bits]
  have hlt := natOfBits_lt (bits.drop k)
  rw [List.length_drop] at hlt
  rw [natOfBits_append, List.length_drop, List.take_append_drop, Nat.mul_comm, Nat.mul_add_mod,
    Nat.mod_eq_of_lt hlt]

theorem length_unitBits (f : Nat) (v : Byte) : (unitBits f v).length = f := by simp [unitBits]

/-- A unit that fits its width is the number of its bits. -/
theorem natOfBits_unitBits (f : Nat) (v : Byte) (hf : f ≤ 8) (hv : v.toNat < 2 ^ f) :
    natOfBits (unitBits f v) = v.toNat := by
  revert v
  interval_cases f <;> decide +kernel

theorem length_bitStream (f : Nat) (units : List Byte) : (bitStream f units).length = units.length * f := by
  induction units with
  | nil => simp [bitStream]
  | cons v vs ih =>
    simp only [bitStream, List.flatMap_cons, List.length_append, List.length_cons, length_unitBits] at *
    rw [ih]
    ring

theorem wholeUnits_of_lt (t : Nat) (bits : List Bool) (h : bits.length < t) : wholeUnits t bits = [] := by
  simp [wholeUnits, Nat.div_eq_of_lt h]

theorem leftoverBits_of_lt (t : Nat) (bits : List Bool) (h : bits.length < t) :
    leftoverBits t bits = bits := by
  simp [leftoverBits, Nat.div_eq_of_lt h]

theorem wholeUnits_of_le (t : Nat) (bits : List Bool) (ht : 1 ≤ t) (h : t ≤ bits.length) :
    wholeUnits t bits = unitOfBits (bits.take t) :: wholeUnits t (bits.drop t) := by
  have hd : bits.length / t = (bits.length - t) / t + 1 := by
    rw [← Nat.add_div_right _ (by omega : 0 < t)]; congr 1; omega
  simp only [wholeUnits, List.length_drop]
  rw [hd, List.range_succ_eq_map]
  simp only [List.map_cons, Nat.zero_mul, List.drop_zero, List.map_map, List.cons.injEq, true_and]
  refine List.map_congr_left fun j _ => ?_
  simp only [Function.comp, List.drop_drop, Nat.succ_mul]
  rw [Nat.add_comm t (j * t)]

theorem leftoverBits_of_le (t : Nat) (bits : List Bool) (ht : 1 ≤ t) (h : t ≤ bits.length) :
    leftoverBits t bits = leftoverBits t (bits.drop t) := by
  have hd : bits.length / t = (bits.length - t) / t + 1 := by
    rw [← Nat.add_div_right _ (by omega : 0 < t)]; congr 1; omega
  simp only [leftoverBits, List.length_drop, List.drop_drop]
  rw [hd, Nat.succ_mul, Nat.add_comm]

theorem length_wholeUnits (t : Nat) (bits : List Bool) : (wholeUnits t bits).length = bits.length / t := by
  simp [wholeUnits]

theorem length_leftoverBits (t : Nat) (bits : List Bool) :
    (leftoverBits t bits).length = bits.length % t := by
  have h := Nat.div_add_mod bits.length t
  rw [Nat.mul_comm] at h
  simp only [leftoverBits, List.length_drop]
  omega

/-- Cutting a stream in two places cuts it the same way (R91: the accumulator carries the rest). -/
theorem wholeUnits_append (t : Nat) (ht : 1 ≤ t) (a b : List Bool) :
    wholeUnits t (a ++ b) = wholeUnits t a ++ wholeUnits t (leftoverBits t a ++ b) ∧
    leftoverBits t (a ++ b) = leftoverBits t (leftoverBits t a ++ b) := by
  induction hn : a.length using Nat.strongRecOn generalizing a with
  | ind n ih =>
    by_cases h : a.length < t
    · simp [wholeUnits_of_lt t a h, leftoverBits_of_lt t a h]
    · have hle : t ≤ a.length := by omega
      have hle' : t ≤ (a ++ b).length := by rw [List.length_append]; omega
      have hdrop : (a ++ b).drop t = a.drop t ++ b := List.drop_append_of_le_length hle
      have htake : (a ++ b).take t = a.take t := List.take_append_of_le_length hle
      obtain ⟨h1, h2⟩ := ih (a.drop t).length (by rw [List.length_drop]; omega) (a.drop t) rfl
      rw [wholeUnits_of_le t _ ht hle', leftoverBits_of_le t _ ht hle', hdrop, htake,
        wholeUnits_of_le t a ht hle, leftoverBits_of_le t a ht hle, h1, h2, List.cons_append]
      exact ⟨rfl, rfl⟩

theorem unitMask_and (t n : Nat) : n &&& unitMask t = n % 2 ^ t := by
  rw [unitMask, Nat.shiftLeft_eq, Nat.one_mul, Nat.and_two_pow_sub_one_eq_mod]

/-- R91's inner loop emits the whole units of the buffered bits and leaves the rest. -/
theorem emitUnits_eq (t acc : Nat) (ht : 1 ≤ t) (fuel : Nat) (bits : List Bool)
    (hfuel : bits.length ≤ fuel) (hacc : acc % 2 ^ bits.length = natOfBits bits) :
    emitUnits t acc fuel bits.length = (wholeUnits t bits, (leftoverBits t bits).length) := by
  induction fuel generalizing bits with
  | zero =>
    have hl : bits.length < t := by omega
    simp only [emitUnits, wholeUnits_of_lt t bits hl, leftoverBits_of_lt t bits hl]
  | succ fuel ih =>
    by_cases h : t ≤ bits.length
    · have hsub : bits.length - t = (bits.drop t).length := by rw [List.length_drop]
      have hdrop : acc % 2 ^ (bits.drop t).length = natOfBits (bits.drop t) := by
        rw [natOfBits_drop, ← hacc, List.length_drop,
          Nat.mod_mod_of_dvd _ (Nat.pow_dvd_pow 2 (Nat.sub_le _ _))]
      have hunit : (acc >>> (bits.length - t)) &&& unitMask t = natOfBits (bits.take t) := by
        rw [unitMask_and, natOfBits_take bits t h, ← hacc, Nat.shiftRight_eq_div_pow,
          ← Nat.mod_mul_right_div_self, ← pow_add, Nat.sub_add_cancel h]
      have hrec := ih (bits.drop t) (by rw [List.length_drop]; omega) hdrop
      rw [wholeUnits_of_le t bits ht h, leftoverBits_of_le t bits ht h, unitOfBits_eq, ← hunit]
      simp only [emitUnits, h, if_true, hsub, hrec]
    · have hl : bits.length < t := by omega
      simp only [emitUnits, h, if_false, wholeUnits_of_lt t bits hl, leftoverBits_of_lt t bits hl]

theorem length_leftoverBits_lt (t : Nat) (bits : List Bool) (ht : 1 ≤ t) : (leftoverBits t bits).length < t := by
  rw [length_leftoverBits]
  exact Nat.mod_lt _ ht

/-- The bits left over are the low bits of the stream's number. -/
theorem natOfBits_leftoverBits (t : Nat) (bits : List Bool) :
    natOfBits (leftoverBits t bits) = natOfBits bits % 2 ^ (leftoverBits t bits).length := by
  rw [leftoverBits, natOfBits_drop, List.length_drop]

/-- Shifting a unit in appends its bits (R91: `acc <- (acc << fromBits) | v`). -/
theorem shiftIn_eq (f : Nat) (bits : List Bool) (v : Byte) (hf : f ≤ 8) (hv : v.toNat < 2 ^ f) :
    (natOfBits bits <<< f) ||| v.toNat = natOfBits (bits ++ unitBits f v) := by
  rw [natOfBits_append, length_unitBits, natOfBits_unitBits f v hf hv, Nat.shiftLeft_eq,
    Nat.mul_comm, Nat.two_pow_add_eq_or_of_lt hv]

/-- R19: between units the accumulator has at most toBits - 1 bits, and with the next unit shifted in
at most fromBits + toBits - 1. -/
theorem shiftIn_lt (f t : Nat) (bits : List Bool) (v : Byte) (hf : f ≤ 8) (hv : v.toNat < 2 ^ f)
    (hl : bits.length < t) : (natOfBits bits <<< f) ||| v.toNat < 2 ^ (f + t - 1) := by
  rw [shiftIn_eq f bits v hf hv]
  refine lt_of_lt_of_le (natOfBits_lt _) (Nat.pow_le_pow_right (by decide) ?_)
  rw [List.length_append, length_unitBits]
  omega

/-- R91's outer loop on units that fit: it emits the whole units of the buffered bits followed by the
stream, and ends with the bits left over. -/
theorem convertLoop_eq (f t : Nat) (hf : f ≤ 8) (ht : 1 ≤ t) (input : List Byte)
    (hfit : ∀ v ∈ input, v.toNat < 2 ^ f) (i : Nat) (bits : List Bool) (hb : bits.length < t) :
    convertLoop f t input i (natOfBits bits) bits.length =
      .ok (wholeUnits t (bits ++ bitStream f input),
        natOfBits (leftoverBits t (bits ++ bitStream f input)),
        (leftoverBits t (bits ++ bitStream f input)).length) := by
  induction input generalizing i bits with
  | nil =>
    simp only [bitStream, List.flatMap_nil, List.append_nil, convertLoop,
      wholeUnits_of_lt t bits hb, leftoverBits_of_lt t bits hb]
  | cons v vs ih =>
    have hv : v.toNat < 2 ^ f := hfit v List.mem_cons_self
    have hshift : v.toNat >>> f = 0 := by rw [Nat.shiftRight_eq_div_pow]; exact Nat.div_eq_of_lt hv
    have hlen : bits.length + f = (bits ++ unitBits f v).length := by
      rw [List.length_append, length_unitBits]
    have hemit := emitUnits_eq t (natOfBits (bits ++ unitBits f v)) ht (bits.length + f)
      (bits ++ unitBits f v) (le_of_eq hlen.symm) (Nat.mod_eq_of_lt (natOfBits_lt _))
    rw [← hlen] at hemit
    have hmask : natOfBits (bits ++ unitBits f v) &&&
        ((1 <<< (leftoverBits t (bits ++ unitBits f v)).length) - 1) =
        natOfBits (leftoverBits t (bits ++ unitBits f v)) := by
      rw [natOfBits_leftoverBits]
      exact unitMask_and _ _
    have hstream : bits ++ bitStream f (v :: vs) = (bits ++ unitBits f v) ++ bitStream f vs := by
      simp [bitStream]
    obtain ⟨hw, hr⟩ := wholeUnits_append t ht (bits ++ unitBits f v) (bitStream f vs)
    have hrec := ih (fun u hu => hfit u (List.mem_cons_of_mem v hu)) (i + 1)
      (leftoverBits t (bits ++ unitBits f v)) (length_leftoverBits_lt t _ ht)
    rw [hstream, hw, hr]
    simp only [convertLoop, hshift, ne_eq, not_true_eq_false, if_false, shiftIn_eq f bits v hf hv, hemit,
      hmask, hrec]

/-- R91's outer loop stops at the first unit that does not fit its width. -/
theorem convertLoop_wide (f t : Nat) (before after : List Byte) (v : Byte)
    (hfit : ∀ u ∈ before, u.toNat < 2 ^ f) (hv : 2 ^ f ≤ v.toNat) (i acc bits : Nat) :
    convertLoop f t (before ++ v :: after) i acc bits =
      .error ⟨.bitValueExceedsWidth, i + before.length⟩ := by
  induction before generalizing i acc bits with
  | nil =>
    have h : v.toNat >>> f ≠ 0 := by
      rw [Nat.shiftRight_eq_div_pow]
      exact Nat.ne_of_gt (Nat.div_pos hv (Nat.two_pow_pos f))
    simp [convertLoop, h]
  | cons u us ih =>
    have hu : u.toNat >>> f = 0 := by
      rw [Nat.shiftRight_eq_div_pow]
      exact Nat.div_eq_of_lt (hfit u List.mem_cons_self)
    simp only [List.cons_append, convertLoop, hu, ne_eq, not_true_eq_false, if_false,
      ih (fun w hw => hfit w (List.mem_cons_of_mem u hw)), List.length_cons]
    congr 2
    omega

theorem natOfBits_eq_zero (bits : List Bool) : natOfBits bits = 0 ↔ true ∉ bits := by
  induction bits with
  | nil => simp [natOfBits]
  | cons b bs ih =>
    have h : natOfBits (b :: bs) = b.toNat * 2 ^ bs.length + natOfBits bs := by
      have := natOfBits_append [b] bs
      simpa [natOfBits] using this
    have hp := Nat.two_pow_pos bs.length
    rw [h]
    cases b
    · simpa using ih
    · simp

theorem natOfBits_replicate (bits : List Bool) (k : Nat) :
    natOfBits (bits ++ List.replicate k false) = natOfBits bits * 2 ^ k := by
  have h : natOfBits (List.replicate k false) = 0 := (natOfBits_eq_zero _).mpr (by simp)
  rw [natOfBits_append, List.length_replicate, h, Nat.add_zero]

/-- The last unit R91 would form of the bits left over. -/
theorem remainder_eq (t : Nat) (rest : List Bool) (h : rest.length < t) :
    (natOfBits rest <<< (t - rest.length)) &&& unitMask t =
      natOfBits (rest ++ List.replicate (t - rest.length) false) := by
  have hlt := natOfBits_lt (rest ++ List.replicate (t - rest.length) false)
  rw [List.length_append, List.length_replicate, Nat.add_sub_cancel' h.le] at hlt
  rw [unitMask_and, Nat.shiftLeft_eq, ← natOfBits_replicate, Nat.mod_eq_of_lt hlt]

theorem natOfBits_inj (a b : List Bool) (hl : a.length = b.length) (h : natOfBits a = natOfBits b) : a = b := by
  induction a using List.reverseRecOn generalizing b with
  | nil => exact (List.length_eq_zero_iff.mp hl.symm).symm
  | append_singleton as x ih =>
    cases b using List.reverseRecOn with
    | nil => simp at hl
    | append_singleton bs y =>
      rw [natOfBits_append, natOfBits_append] at h
      simp only [List.length_append, List.length_singleton, Nat.add_right_cancel_iff] at hl
      have hxy : natOfBits as = natOfBits bs ∧ x = y := by
        cases x <;> cases y <;> simp [natOfBits] at h ⊢ <;> omega
      rw [ih bs hl hxy.1, hxy.2]

theorem unitOfBits_lt (bits : List Bool) (t : Nat) (h : bits.length ≤ t) : (unitOfBits bits).toNat < 2 ^ t := by
  rw [unitOfBits_eq, BitVec.toNat_ofNat]
  exact lt_of_le_of_lt (Nat.mod_le _ _)
    (lt_of_lt_of_le (natOfBits_lt bits) (Nat.pow_le_pow_right (by decide) h))

/-- The bits of the unit made of at most eight bits are those bits. -/
theorem unitBits_unitOfBits (bits : List Bool) (h : bits.length ≤ 8) :
    unitBits bits.length (unitOfBits bits) = bits := by
  refine natOfBits_inj _ _ (length_unitBits _ _) ?_
  rw [natOfBits_unitBits _ _ h (unitOfBits_lt bits _ le_rfl), unitOfBits_eq, BitVec.toNat_ofNat]
  exact Nat.mod_eq_of_lt (lt_of_lt_of_le (natOfBits_lt bits) (Nat.pow_le_pow_right (by decide) h))

theorem unitOfBits_unitBits (f : Nat) (v : Byte) (hf : f ≤ 8) (hv : v.toNat < 2 ^ f) :
    unitOfBits (unitBits f v) = v := by
  rw [unitOfBits_eq, natOfBits_unitBits f v hf hv, BitVec.ofNat_toNat, BitVec.setWidth_eq]

theorem bitStream_append (t : Nat) (a b : List Byte) :
    bitStream t (a ++ b) = bitStream t a ++ bitStream t b := by simp [bitStream]

/-- Every unit cut from a stream fits its width (R92 item 4). -/
theorem wholeUnits_fit (t : Nat) (bits : List Bool) : ∀ v ∈ wholeUnits t bits, v.toNat < 2 ^ t := by
  intro v hv
  obtain ⟨j, _, hj⟩ := List.mem_map.mp hv
  rw [← hj]
  exact unitOfBits_lt _ t (by rw [List.length_take]; exact Nat.min_le_left _ _)

/-- The units cut from a stream and the bits left over are the stream. -/
theorem bitStream_wholeUnits (t : Nat) (ht1 : 1 ≤ t) (ht8 : t ≤ 8) (bits : List Bool) :
    bitStream t (wholeUnits t bits) ++ leftoverBits t bits = bits := by
  induction hn : bits.length using Nat.strongRecOn generalizing bits with
  | ind n ih =>
    by_cases h : bits.length < t
    · rw [wholeUnits_of_lt t bits h, leftoverBits_of_lt t bits h]
      rfl
    · have hle : t ≤ bits.length := by omega
      have htake : (bits.take t).length = t := by rw [List.length_take, Nat.min_eq_left hle]
      have hunit := unitBits_unitOfBits (bits.take t) (by rw [htake]; exact ht8)
      rw [htake] at hunit
      have hrec := ih (bits.drop t).length (by rw [List.length_drop]; omega) (bits.drop t) rfl
      rw [wholeUnits_of_le t bits ht1 hle, leftoverBits_of_le t bits ht1 hle]
      have hcons : bitStream t (unitOfBits (bits.take t) :: wholeUnits t (bits.drop t)) =
          bits.take t ++ bitStream t (wholeUnits t (bits.drop t)) := by
        simp only [bitStream, List.flatMap_cons, hunit]
      rw [hcons, List.append_assoc, hrec, List.take_append_drop]

/-- Cutting the stream of units that fit into the same width gives the units, and leaves no bit. -/
theorem wholeUnits_bitStream (f : Nat) (hf1 : 1 ≤ f) (hf8 : f ≤ 8) (units : List Byte)
    (hfit : ∀ v ∈ units, v.toNat < 2 ^ f) :
    wholeUnits f (bitStream f units) = units ∧ leftoverBits f (bitStream f units) = [] := by
  induction units with
  | nil => exact ⟨wholeUnits_of_lt f [] hf1, leftoverBits_of_lt f [] hf1⟩
  | cons v vs ih =>
    have hv := hfit v List.mem_cons_self
    obtain ⟨h1, h2⟩ := ih fun u hu => hfit u (List.mem_cons_of_mem v hu)
    have hc : bitStream f (v :: vs) = unitBits f v ++ bitStream f vs := by
      simp only [bitStream, List.flatMap_cons]
    have hlen : f ≤ (bitStream f (v :: vs)).length := by
      rw [hc, List.length_append, length_unitBits]; omega
    have htake : (bitStream f (v :: vs)).take f = unitBits f v := by
      rw [hc, List.take_left' (length_unitBits f v)]
    have hdrop : (bitStream f (v :: vs)).drop f = bitStream f vs := by
      rw [hc, List.drop_left' (length_unitBits f v)]
    rw [wholeUnits_of_le f _ hf1 hlen, leftoverBits_of_le f _ hf1 hlen, htake, hdrop, h1, h2,
      unitOfBits_unitBits f v hf8 hv]
    exact ⟨rfl, rfl⟩

end Sys2Proof.Machine
end

