-- ==== Sys2Proof/Laws/Decode.lean ====
section
/-!
SUPPORT. The command word bit by bit: what a packed word holds (R51) and what a selected row says of the
word (R52).
-/

namespace Sys2Proof

/-- Bit k of a packed command word is the bit of the field that holds it (R51). -/
theorem getLsbD_packCommand (op : BitVec 4) (var pad : Bool) (fromBits toBits : BitVec 4) (arg : BitVec 8)
    (k : Nat) (hk : k < 32) :
    (packCommand op var pad fromBits toBits arg).getLsbD k =
      if k < 4 then op.getLsbD k
      else if k = 4 then var
      else if k = 5 then pad
      else if k < 10 then fromBits.getLsbD (k - 6)
      else if k < 14 then toBits.getLsbD (k - 10)
      else if k < 16 then false
      else if k < 24 then arg.getLsbD (k - 16)
      else false := by
  simp only [packCommand, BitVec.getLsbD_append]
  interval_cases k <;> simp

/-- A row that selects a word gives its operation, and the word has the row's bits under the mask. -/
theorem selectRow_ok (w mask pattern : Word) (i j : Instr) (h : selectRow w mask pattern i = .ok j) :
    j = i ∧ ∀ k, mask.getLsbD k = true → w.getLsbD k = pattern.getLsbD k := by
  unfold selectRow at h
  split at h <;> cases h
  rename_i hm
  refine ⟨rfl, fun k hk => ?_⟩
  rw [← hm, BitVec.getLsbD_and, hk, Bool.and_true]

theorem bit_variantField (w : Word) : (variantField w).bit = w.getLsbD 4 := by
  unfold variantField
  cases w.getLsbD 4 <;> rfl

end Sys2Proof
end

