-- ==== Sys2Proof/Laws/Decoder.lean ====
section
/-!
SUPPORT. The string decoder: what each step of R131 does, and what the whole accepts and raises.
-/

namespace Sys2Proof.Machine

theorem isLowerLetter_iff (c : Byte) : isLowerLetter c = true ↔ lowerCode c := by
  simp [isLowerLetter, lowerCode]

theorem isUpperLetter_iff (c : Byte) : isUpperLetter c = true ↔ upperCode c := by
  simp [isUpperLetter, upperCode]

/-- The scan of R131 step 2 passes exactly the strings whose codes are in 33 to 126 and whose letters,
with the two flags counted in, are of one case. -/
theorem scanChars_none (str : List Byte) (i : Nat) (ls us : Bool) (hflags : ¬ (ls = true ∧ us = true)) :
    scanChars i ls us str = none ↔
      (∀ c ∈ str, 33 ≤ c.toNat ∧ c.toNat ≤ 126) ∧
      ¬ ((ls = true ∨ ∃ c ∈ str, lowerCode c) ∧ (us = true ∨ ∃ c ∈ str, upperCode c)) := by
  induction str generalizing i ls us with
  | nil => simpa [scanChars] using hflags
  | cons c cs ih =>
    simp only [scanChars]
    have hexcl : ¬ (isLowerLetter c = true ∧ isUpperLetter c = true) := fun h => by
      simp only [isLowerLetter_iff, isUpperLetter_iff, lowerCode, upperCode] at h; omega
    by_cases hr : c.toNat < 33 ∨ 126 < c.toNat
    · simp only [hr, if_true, reduceCtorEq, false_iff, List.forall_mem_cons]
      intro h
      omega
    · have hrange : 33 ≤ c.toNat ∧ c.toNat ≤ 126 := by omega
      simp only [hr, if_false, List.forall_mem_cons, hrange, and_self, true_and, List.exists_mem_cons_iff,
        ← isLowerLetter_iff c, ← isUpperLetter_iff c]
      by_cases h1 : (isLowerLetter c && us) = true
      · rw [if_pos h1]
        rw [Bool.and_eq_true] at h1
        simp only [reduceCtorEq, h1, true_or, or_true, and_self, not_true_eq_false, and_false]
      · rw [if_neg h1]
        by_cases h2 : (isUpperLetter c && ls) = true
        · rw [if_pos h2]
          rw [Bool.and_eq_true] at h2
          simp only [reduceCtorEq, h2, true_or, or_true, and_self, not_true_eq_false, and_false]
        · rw [if_neg h2]
          rw [Bool.and_eq_true] at h1 h2
          have hf : ¬ ((ls || isLowerLetter c) = true ∧ (us || isUpperLetter c) = true) := by
            simp only [Bool.or_eq_true]
            tauto
          rw [ih (i + 1) _ _ hf]
          simp only [Bool.or_eq_true, or_assoc]

/-- R131 step 2 on a whole string. -/
theorem scanChars_clean (str : List Byte) (i : Nat) : scanChars i false false str = none ↔ cleanChars str := by
  rw [scanChars_none str i false false (by decide)]
  simp [cleanChars]

/-- After a part that passes, the scan goes on with the flags of that part (R131 step 2). -/
theorem scanChars_append (before rest : List Byte) (i : Nat) (ls us : Bool)
    (h : scanChars i ls us before = none) :
    scanChars i ls us (before ++ rest) = scanChars (i + before.length)
      (ls || before.any isLowerLetter) (us || before.any isUpperLetter) rest := by
  induction before generalizing i ls us with
  | nil => simp
  | cons c cs ih =>
    simp only [scanChars] at h
    split at h
    · cases h
    · rename_i h1
      split at h
      · cases h
      · rename_i h2
        split at h
        · cases h
        · rename_i h3
          simp only [List.cons_append, scanChars, h1, h2, h3, if_false, ih _ _ _ h, List.length_cons,
            List.any_cons, Bool.or_assoc, Bool.false_eq_true, show i + 1 + cs.length = i + (cs.length + 1) by omega]

theorem any_isLowerLetter (str : List Byte) : str.any isLowerLetter = true ↔ ∃ c ∈ str, lowerCode c := by
  simp only [List.any_eq_true, isLowerLetter_iff]

theorem any_isUpperLetter (str : List Byte) : str.any isUpperLetter = true ↔ ∃ c ∈ str, upperCode c := by
  simp only [List.any_eq_true, isUpperLetter_iff]

/-- The scan stops at a character out of range after a part that passes (R156). -/
theorem scanChars_code (before after : List Byte) (c : Byte) (h : cleanChars before)
    (hc : c.toNat < 33 ∨ 126 < c.toNat) :
    scanChars 0 false false (before ++ c :: after) = some ⟨.invalidCharacterCode, before.length⟩ := by
  rw [scanChars_append before _ 0 false false ((scanChars_clean before 0).mpr h)]
  simp [scanChars, hc]

/-- The scan stops at a letter of the other case after a part that passes (R157). -/
theorem scanChars_case (before after : List Byte) (c : Byte) (h : cleanChars before)
    (hc : (lowerCode c ∧ ∃ d ∈ before, upperCode d) ∨ (upperCode c ∧ ∃ d ∈ before, lowerCode d)) :
    scanChars 0 false false (before ++ c :: after) = some ⟨.mixedCase, before.length⟩ := by
  rw [scanChars_append before _ 0 false false ((scanChars_clean before 0).mpr h)]
  have hr : ¬ (c.toNat < 33 ∨ 126 < c.toNat) := by
    simp only [lowerCode, upperCode] at hc
    rcases hc with ⟨hc, _⟩ | ⟨hc, _⟩ <;> omega
  rcases hc with ⟨hc, hd⟩ | ⟨hc, hd⟩
  · simp [scanChars, hr, (isLowerLetter_iff c).mpr hc, (any_isUpperLetter before).mpr hd]
  · simp [scanChars, hr, (isUpperLetter_iff c).mpr hc, (any_isLowerLetter before).mpr hd]

theorem lastSeparator_none (str : List Byte) (i : Nat) (found : Option Nat) (h : (0x31 : Byte) ∉ str) :
    lastSeparator i found str = found := by
  induction str generalizing i with
  | nil => rfl
  | cons c cs ih =>
    have hc : c ≠ separator := fun he => h (by rw [he]; exact List.mem_cons_self)
    simp only [lastSeparator, hc, if_false]
    exact ih (i + 1) fun hm => h (List.mem_cons_of_mem c hm)

/-- R131 step 3 finds the last '1'. -/
theorem lastSeparator_split (hrp data : List Byte) (i : Nat) (found : Option Nat) (h : (0x31 : Byte) ∉ data) :
    lastSeparator i found (hrp ++ 0x31 :: data) = some (i + hrp.length) := by
  induction hrp generalizing i found with
  | nil =>
    simp only [List.nil_append, lastSeparator, separator, if_true, List.length_nil, Nat.add_zero]
    exact lastSeparator_none data (i + 1) _ h
  | cons c cs ih =>
    simp only [List.cons_append, lastSeparator, List.length_cons, ih]
    congr 1
    omega

/-- A string either has no '1' or splits at its last one. -/
theorem splitsAt_or_none (str : List Byte) :
    (0x31 : Byte) ∉ str ∨ ∃ hrp data, splitsAt str hrp data := by
  induction str with
  | nil => exact .inl (by simp)
  | cons c cs ih =>
    rcases ih with h | ⟨hrp, data, h1, h2⟩
    · by_cases hc : c = 0x31
      · exact .inr ⟨[], cs, by rw [hc]; rfl, h⟩
      · exact .inl fun hm => (List.mem_cons.mp hm).elim (fun e => hc e.symm) h
    · exact .inr ⟨c :: hrp, data, by simp [h1], h2⟩

/-- R131 step 5 on characters of the alphabet. -/
theorem dataValues_alphabet (data : List Byte) (i : Nat) (h : inAlphabet data) :
    dataValues i data = .ok (data.map valueOf) := by
  induction data generalizing i with
  | nil => rfl
  | cons c cs ih =>
    have hc : valueOf c ≠ revInvalid := h c List.mem_cons_self
    simp only [dataValues, hc, if_false, ih (i + 1) fun d hd => h d (List.mem_cons_of_mem c hd), List.map_cons]

/-- R131 step 5 stops at the first character outside the alphabet (R160). -/
theorem dataValues_unknown (before after : List Byte) (c : Byte) (i : Nat) (h : inAlphabet before)
    (hc : valueOf c = 0xFF) :
    dataValues i (before ++ c :: after) = .error ⟨.unknownCharacter, i + before.length⟩ := by
  induction before generalizing i with
  | nil => simp [dataValues, hc, revInvalid]
  | cons d ds ih =>
    have hd : valueOf d ≠ revInvalid := h d List.mem_cons_self
    simp only [List.cons_append, dataValues, hd, if_false,
      ih (i + 1) fun e he => h e (List.mem_cons_of_mem d he), List.length_cons]
    congr 2
    omega

/-- What R131 step 5 can do. -/
theorem dataValues_cases (data : List Byte) (i : Nat) :
    (inAlphabet data ∧ dataValues i data = .ok (data.map valueOf)) ∨
    ∃ k, dataValues i data = .error ⟨.unknownCharacter, k⟩ := by
  induction data generalizing i with
  | nil => exact .inl ⟨fun c hc => (List.not_mem_nil hc).elim, rfl⟩
  | cons c cs ih =>
    by_cases hc : valueOf c = revInvalid
    · exact .inr ⟨i, by simp only [dataValues, hc, if_true]⟩
    · rcases ih (i + 1) with ⟨h1, h2⟩ | ⟨k, hk⟩
      · refine .inl ⟨fun d hd => ?_, by simp only [dataValues, hc, if_false, h2, List.map_cons]⟩
        rcases List.mem_cons.mp hd with hd | hd
        · rw [hd]; exact hc
        · exact h1 d hd
      · exact .inr ⟨k, by simp only [dataValues, hc, if_false, hk]⟩

/-- Every value the inverse look-up gives for a character of the alphabet is a 5-bit group. -/
theorem valueOf_group (data : List Byte) (h : inAlphabet data) : areGroups (data.map valueOf) := by
  have hv : ∀ c : Byte, valueOf c ≠ 0xFF → (valueOf c).toNat ≤ 31 := by decide +kernel
  intro v hm
  obtain ⟨c, hc, rfl⟩ := List.mem_map.mp hm
  exact hv c (h c hc)

/-- What the checksum test of R131 step 7 decides. -/
theorem verifyChecksum_eq_some (hrp values : List Byte) (var : Variant) :
    verifyChecksum hrp values = some var ↔
      (polymod (expand hrp ++ values)).toNat = (if var = .b then 0x2BC830A3 else 1) := by
  have e1 : ∀ x : Poly, x = constOf .a ↔ x.toNat = 1 := fun x => by rw [BitVec.toNat_eq]; rfl
  have e2 : ∀ x : Poly, x = constOf .b ↔ x.toNat = 0x2BC830A3 := fun x => by rw [BitVec.toNat_eq]; rfl
  simp only [verifyChecksum, e1, e2]
  cases var <;> simp only [if_true, reduceCtorEq, if_false]
  · split
    · simp_all
    · split <;> simp_all
  · split
    · simp_all
    · split <;> simp_all

theorem verifyChecksum_eq_none (hrp values : List Byte) :
    verifyChecksum hrp values = none ↔
      (polymod (expand hrp ++ values)).toNat ≠ 1 ∧ (polymod (expand hrp ++ values)).toNat ≠ 0x2BC830A3 := by
  have e1 : ∀ x : Poly, x = constOf .a ↔ x.toNat = 1 := fun x => by rw [BitVec.toNat_eq]; rfl
  have e2 : ∀ x : Poly, x = constOf .b ↔ x.toNat = 0x2BC830A3 := fun x => by rw [BitVec.toNat_eq]; rfl
  simp only [verifyChecksum, e1, e2]
  split
  · simp_all
  · split <;> simp_all

/-- R131 steps 4 to 8 of a string that splits. -/
theorem decodeAt_split (hrp data : List Byte) :
    decodeAt (hrp ++ 0x31 :: data) hrp.length =
      if data.length < 6 then .error ⟨.dataPartTooShort, 0⟩
      else match dataValues (hrp.length + 1) data with
        | .error e => .error e
        | .ok values => decodeParts hrp values := by
  have hlen : (hrp ++ 0x31 :: data).length - 1 - hrp.length = data.length := by
    rw [List.length_append, List.length_cons]; omega
  have hdrop : (hrp ++ 0x31 :: data).drop (hrp.length + 1) = data := by
    rw [← List.drop_drop, List.drop_left]; rfl
  have htake : (hrp ++ 0x31 :: data).take hrp.length = hrp := List.take_left
  rw [decodeAt, hlen, hdrop, htake]
  all_goals rfl

/-- R131 from step 3 on: what a string that passes the length tests and the scan gives. -/
theorem decodeString_split (str hrp data : List Byte) (h8 : 8 ≤ str.length) (h90 : str.length ≤ 90)
    (hclean : cleanChars str) (hs : splitsAt str hrp data) :
    decodeString str = if hrp = [] then .error ⟨.prefixEmpty, 0⟩ else decodeAt str hrp.length := by
  have hscan := (scanChars_clean str 0).mpr hclean
  have hsep := lastSeparator_split hrp data 0 none hs.2
  rw [← hs.1, Nat.zero_add] at hsep
  unfold decodeString
  rw [if_neg (by omega), if_neg (by omega), hscan, hsep]
  cases hrp with
  | nil => rfl
  | cons c cs => rfl

/-- R131 of a string with an acceptable data part: only the checksum is left to decide. -/
theorem decodeString_alphabet (str hrp data : List Byte) (h8 : 8 ≤ str.length) (h90 : str.length ≤ 90)
    (hclean : cleanChars str) (hs : splitsAt str hrp data) (hne : hrp ≠ []) (h6 : 6 ≤ data.length)
    (ha : inAlphabet data) : decodeString str = decodeParts hrp (data.map valueOf) := by
  rw [decodeString_split str hrp data h8 h90 hclean hs, if_neg hne, hs.1, decodeAt_split,
    if_neg (by omega), dataValues_alphabet data _ ha]

/-- What R131 accepts, and what it then delivers. -/
theorem decodeString_ok (str : List Byte) (d : Decoded) (h : decodeString str = .ok d) :
    8 ≤ str.length ∧ str.length ≤ 90 ∧ cleanChars str ∧
    ∃ hrp data, splitsAt str hrp data ∧ hrp ≠ [] ∧ 6 ≤ data.length ∧ inAlphabet data ∧
      (stringPolymod hrp data).toNat = (if d.var = .b then 0x2BC830A3 else 1) ∧
      d.hrp = hrp.map lower ∧ d.payload = (data.map valueOf).take (data.length - 6) := by
  have h8 : 8 ≤ str.length := by
    by_contra hc
    unfold decodeString at h
    rw [if_pos (by omega)] at h
    cases h
  have h90 : str.length ≤ 90 := by
    by_contra hc
    unfold decodeString at h
    rw [if_neg (by omega), if_pos (by omega)] at h
    cases h
  have hclean : cleanChars str := by
    rw [← scanChars_clean str 0]
    cases hscan : scanChars 0 false false str with
    | none => rfl
    | some e =>
      unfold decodeString at h
      rw [if_neg (by omega), if_neg (by omega), hscan] at h
      cases h
  refine ⟨h8, h90, hclean, ?_⟩
  rcases splitsAt_or_none str with hno | ⟨hrp, data, hs⟩
  · unfold decodeString at h
    rw [if_neg (by omega), if_neg (by omega), (scanChars_clean str 0).mpr hclean,
      lastSeparator_none str 0 none hno] at h
    cases h
  · rw [decodeString_split str hrp data h8 h90 hclean hs] at h
    by_cases hne : hrp = []
    · rw [if_pos hne] at h; cases h
    · rw [if_neg hne, hs.1, decodeAt_split] at h
      by_cases h6 : data.length < 6
      · rw [if_pos h6] at h; cases h
      · rw [if_neg h6] at h
        rcases dataValues_cases data (hrp.length + 1) with ⟨ha, hv⟩ | ⟨k, hk⟩
        · simp only [hv, decodeParts] at h
          split at h
          · cases h
          · rename_i var hvar
            cases h
            refine ⟨hrp, data, hs, hne, by omega, ha, (verifyChecksum_eq_some _ _ _).mp hvar, rfl, ?_⟩
            rw [List.length_map]
        · simp only [hk] at h
          cases h

/-- The kinds R131 can raise (R174, rows DECODE and DECODEB up to step 8). -/
theorem decodeString_error (str : List Byte) (e : Raise) (h : decodeString str = .error e) :
    e.kind ∈ [.prefixEmpty, .stringTooShort, .stringTooLong, .invalidCharacterCode, .mixedCase,
      .missingSeparator, .dataPartTooShort, .unknownCharacter, .checksumInvalid] ∧
    (carriesPosition e.kind.code.toNat = false → e.pos = 0) := by
  have hscan : ∀ (cs : List Byte) (i : Nat) (ls us : Bool) (e : Raise), scanChars i ls us cs = some e →
      e.kind = .invalidCharacterCode ∨ e.kind = .mixedCase := by
    intro cs
    induction cs with
    | nil => intro i ls us e he; cases he
    | cons c cs ih =>
      intro i ls us e he
      simp only [scanChars] at he
      split at he
      · cases he; exact .inl rfl
      · split at he
        · cases he; exact .inr rfl
        · split at he
          · cases he; exact .inr rfl
          · exact ih _ _ _ _ he
  unfold decodeString at h
  split at h
  · cases h; decide
  · split at h
    · cases h; decide
    · split at h
      · rename_i e' he'
        cases h
        rcases hscan _ _ _ _ _ he' with hk | hk <;> rw [hk] <;> exact ⟨by decide, fun hc => nomatch hc⟩
      · split at h
        · cases h; decide
        · cases h; decide
        · unfold decodeAt at h
          split at h
          · cases h; decide
          · split at h
            · rename_i e' he'
              cases h
              rcases dataValues_cases (str.drop (_ + 1)) (_ + 1) with ⟨_, hv⟩ | ⟨k, hk⟩
              · rw [hv] at he'; cases he'
              · rw [hk] at he'; cases he'; exact ⟨by simp, fun hc => nomatch hc⟩
            · unfold decodeParts at h
              split at h
              · cases h; decide
              · cases h

end Sys2Proof.Machine
end

