-- ==== Sys2Proof/Laws/PerInstr.lean ====
section
/-!
SUPPORT. Laws stated instruction by instruction. The family OpcodeRow says that the command word the
encoder writes for an operation is a word of that operation's row of spec/opcode_table.json.
-/

namespace Sys2Proof.Laws.OpcodeRow

/-- The row's mask (R52; "mask" in spec/opcode_table.json). -/
def mask : Instr → Word
  | .csfwd _ => 0xFF00FFFF
  | .csinv _ => 0xFF00FFFF
  | .convert _ _ _ => 0xFFFFC01F
  | .expand => 0xFFFFFFFF
  | .polymod => 0xFFFFFFFF
  | .ckcreate _ => 0xFFFFFFEF
  | .ckverify => 0xFFFFFFFF
  | .encode _ => 0xFFFFFFEF
  | .decode => 0xFFFFFFFF
  | .encodeb _ => 0xFFFFFFEF
  | .decodeb _ => 0xFFFFFFEF

/-- The row's pattern (R52; "match" in spec/opcode_table.json). -/
def pattern : Instr → Word
  | .csfwd _ => 0x00000001
  | .csinv _ => 0x00000002
  | .convert _ _ _ => 0x00000003
  | .expand => 0x00000004
  | .polymod => 0x00000005
  | .ckcreate _ => 0x00000006
  | .ckverify => 0x00000007
  | .encode _ => 0x00000008
  | .decode => 0x00000009
  | .encodeb _ => 0x0000000A
  | .decodeb _ => 0x0000000B

/-- The operation's word has its row's bits under its row's mask (R52). -/
def Statement (i : Instr) : Prop := encodeCommand i &&& mask i = pattern i

theorem csfwd (arg : BitVec 8) : Statement (.csfwd arg) := by
  revert arg; unfold Statement; decide +kernel

theorem csinv (arg : BitVec 8) : Statement (.csinv arg) := by
  revert arg; unfold Statement; decide +kernel

theorem convert (pad : Bool) (fromBits toBits : BitVec 4) : Statement (.convert pad fromBits toBits) := by
  revert pad fromBits toBits; unfold Statement; decide +kernel

theorem expand : Statement .expand := by unfold Statement; decide

theorem polymod : Statement .polymod := by unfold Statement; decide

theorem ckcreate (var : Variant) : Statement (.ckcreate var) := by
  unfold Statement; cases var <;> decide

theorem ckverify : Statement .ckverify := by unfold Statement; decide

theorem encode (var : Variant) : Statement (.encode var) := by
  unfold Statement; cases var <;> decide

theorem decode : Statement .decode := by unfold Statement; decide

theorem encodeb (var : Variant) : Statement (.encodeb var) := by
  unfold Statement; cases var <;> decide

theorem decodeb (var : Variant) : Statement (.decodeb var) := by
  unfold Statement; cases var <;> decide

end Sys2Proof.Laws.OpcodeRow
end

