-- ==== Sys2Proof/Laws/Responses.lean ====
section
/-!
SUPPORT. What each operation's rule can end with: the error kinds it can raise with their positions
(R169), and the shape of the result it can return (R43).
-/

namespace Sys2Proof.Machine

theorem convertLoop_error (f t : Nat) (input : List Byte) (i acc bits : Nat) (e : Raise)
    (h : convertLoop f t input i acc bits = .error e) :
    e.kind = .bitValueExceedsWidth ∧ ∃ v ∈ input, 2 ^ f ≤ v.toNat := by
  induction input generalizing i acc bits with
  | nil => cases h
  | cons v vs ih =>
    simp only [convertLoop] at h
    split at h
    · rename_i hv
      cases h
      refine ⟨rfl, v, List.mem_cons_self, ?_⟩
      rw [Nat.shiftRight_eq_div_pow] at hv
      by_contra hc
      exact hv (Nat.div_eq_of_lt (Nat.lt_of_not_le hc))
    · split at h
      · rename_i e' he'
        cases h
        obtain ⟨hk, u, hu, hw⟩ := ih _ _ _ he'
        exact ⟨hk, u, List.mem_cons_of_mem v hu, hw⟩
      · cases h

/-- What convert can raise (R162, R163). -/
theorem convert_error (f t : Nat) (pad : Bool) (input : List Byte) (e : Raise)
    (h : convert input f t pad = .error e) :
    (e.kind = .bitValueExceedsWidth ∧ ∃ v ∈ input, 2 ^ f ≤ v.toNat) ∨
    (e = ⟨.invalidPadding, 0⟩ ∧ pad = false) := by
  unfold convert at h
  split at h
  · rename_i e' he'
    cases h
    exact .inl (convertLoop_error f t input 0 0 0 e he')
  · dsimp only at h
    split at h
    · split at h <;> cases h
    · rename_i hp
      split at h
      · cases h; exact .inr ⟨rfl, by simpa using hp⟩
      · split at h
        · cases h; exact .inr ⟨rfl, by simpa using hp⟩
        · cases h

theorem convert_eq_resliced (f t : Nat) (pad : Bool) (hf : f ≤ 8) (ht : 1 ≤ t) (input : List Byte)
    (hfit : ∀ v ∈ input, v.toNat < 2 ^ f) (out : List Byte) (h : convert input f t pad = .ok out) :
    out = wholeUnits t (bitStream f input) ++
      if pad = true ∧ leftoverBits t (bitStream f input) ≠ [] then
        [unitOfBits (leftoverBits t (bitStream f input) ++
          List.replicate (t - (leftoverBits t (bitStream f input)).length) false)]
      else [] := by
  have hloop := convertLoop_eq f t hf ht input hfit 0 [] ht
  simp only [List.nil_append, List.length_nil, show natOfBits [] = 0 from rfl] at hloop
  have hrem := remainder_eq t _ (length_leftoverBits_lt t (bitStream f input) ht)
  unfold convert at h
  rw [hloop] at h
  simp only [hrem] at h
  cases pad with
  | true =>
    simp only [if_true, List.length_pos_iff] at h
    split at h
    · rename_i hne; cases h; rw [if_pos ⟨rfl, hne⟩, unitOfBits_eq]
    · rename_i hne; cases h; rw [if_neg (fun hc => hne hc.2), List.append_nil]
  | false =>
    rw [if_neg (by decide)] at h
    split at h
    · cases h
    · split at h
      · cases h
      · cases h; rw [if_neg (fun hc => by cases hc.1), List.append_nil]

/-- How many units convert returns (R92 items 2 and 3). -/
theorem convert_length (f t : Nat) (pad : Bool) (hf : f ≤ 8) (ht : 1 ≤ t) (input : List Byte)
    (hfit : ∀ v ∈ input, v.toNat < 2 ^ f) (out : List Byte) (h : convert input f t pad = .ok out) :
    out.length = if pad then (input.length * f + t - 1) / t else input.length * f / t := by
  rw [convert_eq_resliced f t pad hf ht input hfit out h, List.length_append, length_wholeUnits,
    length_bitStream]
  have hlen := length_leftoverBits t (bitStream f input)
  rw [length_bitStream] at hlen
  have hdiv := Nat.div_add_mod (input.length * f) t
  have hup : (input.length * f + t - 1) / t =
      input.length * f / t + if input.length * f % t = 0 then 0 else 1 := by
    generalize input.length * f = n at hdiv ⊢
    have hm := Nat.mod_lt n ht
    have e : n + t - 1 = t * (n / t) + (n % t + t - 1) := by omega
    rw [e, Nat.mul_add_div ht]
    congr 1
    split
    · rename_i hz; rw [hz]; exact Nat.div_eq_of_lt (by omega)
    · rename_i hz
      have e2 : n % t + t - 1 = t * 1 + (n % t - 1) := by omega
      rw [e2, Nat.mul_add_div ht, Nat.div_eq_of_lt (by omega)]
  cases pad with
  | false => simp
  | true =>
    rw [if_pos rfl, hup]
    congr 1
    by_cases hz : input.length * f % t = 0
    · rw [hz, List.length_eq_zero_iff] at hlen
      simp [hlen, hz]
    · have hne : leftoverBits t (bitStream f input) ≠ [] := by
        intro hc; rw [hc] at hlen; exact hz hlen.symm
      simp [hne, hz]

/-- Units that converted were units that fit (R91). -/
theorem convert_fit (f t : Nat) (pad : Bool) (input out : List Byte) (h : convert input f t pad = .ok out) :
    ∀ v ∈ input, v.toNat < 2 ^ f := by
  have key : ∀ (us : List Byte) (i acc bits : Nat) (r), convertLoop f t us i acc bits = .ok r →
      ∀ v ∈ us, v.toNat < 2 ^ f := by
    intro us
    induction us with
    | nil => intro _ _ _ _ _ v hv; cases hv
    | cons u us ih =>
      intro i acc bits r hr v hv
      simp only [convertLoop] at hr
      split at hr
      · cases hr
      · rename_i hu
        split at hr
        · cases hr
        · rename_i hrec
          rcases List.mem_cons.mp hv with rfl | hv
          · rw [Nat.shiftRight_eq_div_pow] at hu
            by_contra hc
            exact hu (Nat.ne_of_gt (Nat.div_pos (Nat.le_of_not_lt hc) (Nat.two_pow_pos f)))
          · exact ih _ _ _ _ hrec v hv
  unfold convert at h
  split at h
  · cases h
  · rename_i hr; exact key _ _ _ _ _ hr

/-- The kinds each operation's rule can raise (R174 without IllegalCommand). -/
def ruleKinds : Instr → List ErrorKind
  | .csfwd _ => [.operandOutOfDomain]
  | .csinv _ => []
  | .convert _ _ _ => [.bitValueExceedsWidth, .invalidPadding]
  | .expand => []
  | .polymod => [.operandOutOfDomain]
  | .ckcreate _ => [.operandOutOfDomain]
  | .ckverify => [.checksumInvalid, .operandOutOfDomain]
  | .encode _ => [.prefixEmpty, .prefixTooLong, .operandOutOfDomain]
  | .decode => [.prefixEmpty, .stringTooShort, .stringTooLong, .invalidCharacterCode, .mixedCase,
      .missingSeparator, .dataPartTooShort, .unknownCharacter, .checksumInvalid]
  | .encodeb _ => [.prefixEmpty, .prefixTooLong]
  | .decodeb _ => [.prefixEmpty, .stringTooShort, .stringTooLong, .invalidCharacterCode, .mixedCase,
      .missingSeparator, .dataPartTooShort, .unknownCharacter, .checksumInvalid, .invalidPadding,
      .variantOrPrefixMismatch]

/-- An operation's rule raises no other kind (R174), and a kind that carries no position comes with
position 0 (R169). -/
theorem rule_error (i : Instr) (s : State) (e : Raise) (h : rule i s = .error e) :
    e.kind ∈ ruleKinds i ∧
    (carriesPosition e.kind.code.toNat = false → e.pos = 0) := by
  have groups : ∀ (us : List Byte) (r : Except Raise Reply), checkGroups us r = .error e →
      (e.kind = .operandOutOfDomain ∧ (carriesPosition e.kind.code.toNat = false → e.pos = 0)) ∨
        r = .error e := by
    intro us r hr
    rcases checkGroups_cases us r with ⟨k, hk⟩ | ⟨_, hk⟩
    · rw [hk] at hr; cases hr; exact .inl ⟨rfl, fun hc => nomatch hc⟩
    · rw [hk] at hr; exact .inr hr
  cases i with
  | csfwd arg =>
    simp only [rule, csfwdReply] at h
    split at h
    · cases h; exact ⟨by simp [ruleKinds], fun _ => rfl⟩
    · cases h
  | csinv arg => cases h
  | expand => cases h
  | convert pad f t =>
    simp only [rule, convertReply] at h
    split at h
    · rename_i e' he'
      cases h
      rcases convert_error _ _ _ _ _ he' with ⟨hk, _⟩ | ⟨hk, _⟩
      · rw [hk]; exact ⟨by simp [ruleKinds], fun hc => nomatch hc⟩
      · subst hk; exact ⟨by simp [ruleKinds], fun _ => rfl⟩
    · cases h
  | polymod =>
    rcases groups _ _ h with ⟨hk, hp⟩ | hr
    · exact ⟨by simp [ruleKinds, hk], hp⟩
    · cases hr
  | ckcreate var =>
    rcases groups _ _ h with ⟨hk, hp⟩ | hr
    · exact ⟨by simp [ruleKinds, hk], hp⟩
    · cases hr
  | ckverify =>
    rcases groups _ _ h with ⟨hk, hp⟩ | hr
    · exact ⟨by simp [ruleKinds, hk], hp⟩
    · split at hr
      · cases hr; exact ⟨by simp [ruleKinds], fun _ => rfl⟩
      · cases hr
  | encode var =>
    simp only [rule, encodeReply] at h
    split at h
    · cases h; exact ⟨by simp [ruleKinds], fun _ => rfl⟩
    · split at h
      · cases h; exact ⟨by simp [ruleKinds], fun _ => rfl⟩
      · rcases groups _ _ h with ⟨hk, hp⟩ | hr
        · exact ⟨by simp [ruleKinds, hk], hp⟩
        · cases hr
  | decode =>
    simp only [rule, decodeReply] at h
    split at h
    · rename_i e' he'
      cases h
      exact decodeString_error _ _ he'
    · cases h
  | encodeb var =>
    simp only [rule, encodebReply] at h
    split at h
    · rename_i e' he'
      rcases convert_error _ _ _ _ _ he' with ⟨_, v, _, hv⟩ | ⟨_, hp⟩
      · exact absurd v.isLt (Nat.not_lt.mpr hv)
      · cases hp
    · rename_i groups' hg
      simp only [encodeReply] at h
      split at h
      · cases h; exact ⟨by simp [ruleKinds], fun _ => rfl⟩
      · split at h
        · cases h; exact ⟨by simp [ruleKinds], fun _ => rfl⟩
        · rw [checkGroups_groups] at h
          · cases h
          · have hfit := convert_fit 8 5 true _ _ hg
            rw [convert_eq_resliced 8 5 true (by omega) (by omega) _ hfit _ hg]
            intro v hv
            rcases List.mem_append.mp hv with hv | hv
            · have := wholeUnits_fit 5 _ v hv; omega
            · split at hv
              · rw [List.mem_singleton] at hv
                have hl := length_leftoverBits_lt 5 (bitStream 8 s.unitsB) (by omega)
                have := unitOfBits_lt (leftoverBits 5 (bitStream 8 s.unitsB) ++ List.replicate
                  (5 - (leftoverBits 5 (bitStream 8 s.unitsB)).length) false) 5
                  (by rw [List.length_append, List.length_replicate]; omega)
                rw [hv]; omega
              · cases hv
  | decodeb var =>
    simp only [rule, decodebReply] at h
    split at h
    · rename_i e' he'
      cases h
      obtain ⟨hk, hp⟩ := decodeString_error _ _ he'
      refine ⟨?_, hp⟩
      simp only [ruleKinds, List.mem_cons, List.not_mem_nil, or_false] at hk ⊢
      tauto
    · rename_i d hd
      simp only [expectBytes] at h
      split at h
      · cases h; exact ⟨by simp [ruleKinds], fun _ => rfl⟩
      · split at h
        · rename_i e' he'
          cases h
          rcases convert_error _ _ _ _ _ he' with ⟨_, v, hv, hw⟩ | ⟨hk, _⟩
          · obtain ⟨_, _, _, hrp, data, _, _, _, ha, _, _, hpay⟩ := decodeString_ok _ d hd
            rw [hpay] at hv
            have := valueOf_group data ha v (List.mem_of_mem_take hv)
            omega
          · subst hk; exact ⟨by simp [ruleKinds], fun _ => rfl⟩
        · cases h

theorem length_createChecksum (var : Variant) (hrp values : List Byte) :
    (createChecksum var hrp values).length = 6 := by simp [createChecksum, splitGroups]

theorem length_expand (hrp : List Byte) : (expand hrp).length = 2 * hrp.length + 1 := by
  simp [expand]; omega

theorem length_encodedString (var : Variant) (hrp values : List Byte) :
    (encodedString var hrp values).length = hrp.length + 1 + values.length + 6 := by
  simp [encodedString, length_createChecksum]; omega

/-- What ENCODE's rule returns, and on which operands (R120). -/
theorem encodeReply_ok (var : Variant) (hrp values : List Byte) (p : Reply)
    (h : encodeReply var hrp values = .ok p) :
    1 ≤ hrp.length ∧ hrp.length ≤ 83 ∧ areGroups values ∧
    p = { outA := encodedString var (hrp.map lower) values } := by
  simp only [encodeReply] at h
  split at h
  · cases h
  · split at h
    · cases h
    · rcases checkGroups_cases values (.ok { outA := encodedString var (hrp.map lower) values })
        with ⟨k, hk⟩ | ⟨hg, hk⟩
      · rw [hk] at h; cases h
      · rw [hk] at h; cases h; exact ⟨by omega, by omega, hg, rfl⟩

/-- Which of the response's fields an operation's rule can fill, and how long its output is (R43). -/
theorem rule_ok (i : Instr) (s : State) (p : Reply) (h : rule i s = .ok p) :
    match i with
    | .csfwd _ => p.var = .a ∧ p.result = 0 ∧ p.outA.length = 1 ∧ p.outB = []
    | .csinv _ => p.var = .a ∧ p.result = 0 ∧ p.outA.length = 1 ∧ p.outB = []
    | .convert pad f t => p.var = .a ∧ p.result = 0 ∧ p.outB = [] ∧ (i.wellFormed = true → p.outA.length =
        if pad then (s.lenA.toNat * f.toNat + t.toNat - 1) / t.toNat else s.lenA.toNat * f.toNat / t.toNat)
    | .expand => p.var = .a ∧ p.result = 0 ∧ p.outA.length = 2 * s.lenA.toNat + 1 ∧ p.outB = []
    | .polymod => p.var = .a ∧ p.outA = [] ∧ p.outB = []
    | .ckcreate _ => p.var = .a ∧ p.result = 0 ∧ p.outA.length = 6 ∧ p.outB = []
    | .ckverify => p.result = 0 ∧ p.outA = [] ∧ p.outB = []
    | .encode _ => p.var = .a ∧ p.result = 0 ∧ p.outA.length = s.lenA.toNat + 1 + s.lenB.toNat + 6 ∧ p.outB = [] ∧
        s.lenA.toNat ≤ 83
    | .decode => p.result = 0 ∧ 8 ≤ s.lenA.toNat ∧ s.lenA.toNat ≤ 90 ∧ ∃ hrp data, splitsAt s.unitsA hrp data ∧
        6 ≤ data.length ∧ s.lenA.toNat = hrp.length + 1 + data.length ∧
        p.outA.length = hrp.length ∧ p.outB.length = data.length - 6
    | .encodeb _ => p.var = .a ∧ p.result = 0 ∧
        p.outA.length = s.lenA.toNat + 1 + (8 * s.lenB.toNat + 4) / 5 + 6 ∧ p.outB = [] ∧ s.lenA.toNat ≤ 83
    | .decodeb _ => p.result = 0 ∧ p.outB = [] ∧ 8 ≤ s.lenA.toNat ∧ s.lenA.toNat ≤ 90 ∧
        ∃ hrp data, splitsAt s.unitsA hrp data ∧ 6 ≤ data.length ∧
          s.lenA.toNat = hrp.length + 1 + data.length ∧ p.outA.length = 5 * (data.length - 6) / 8 := by
  have groups : ∀ (us : List Byte) (r : Except Raise Reply), checkGroups us r = .ok p → r = .ok p := by
    intro us r hr
    rcases checkGroups_cases us r with ⟨k, hk⟩ | ⟨_, hk⟩
    · rw [hk] at hr; cases hr
    · rwa [hk] at hr
  have parts : ∀ d, decodeString s.unitsA = .ok d → 8 ≤ s.lenA.toNat ∧ s.lenA.toNat ≤ 90 ∧
      ∃ hrp data, splitsAt s.unitsA hrp data ∧ 6 ≤ data.length ∧
        s.lenA.toNat = hrp.length + 1 + data.length ∧ d.hrp.length = hrp.length ∧
        d.payload.length = data.length - 6 := by
    intro d hd
    obtain ⟨h8, h90, _, hrp, data, hs, _, h6, _, _, hhrp, hpay⟩ := decodeString_ok _ d hd
    have hlen := congrArg List.length hs.1
    rw [s.length_unitsA, List.length_append, List.length_cons] at hlen
    rw [s.length_unitsA] at h8 h90
    exact ⟨h8, h90, hrp, data, hs, h6, by omega, by rw [hhrp, List.length_map],
      by rw [hpay, List.length_take, List.length_map]; omega⟩
  cases i with
  | csfwd arg =>
    simp only [rule, csfwdReply] at h
    split at h <;> cases h
    exact ⟨rfl, rfl, rfl, rfl⟩
  | csinv arg => cases h; exact ⟨rfl, rfl, rfl, rfl⟩
  | convert pad f t =>
    simp only [rule, convertReply] at h
    split at h
    · cases h
    · rename_i out hout
      cases h
      refine ⟨rfl, rfl, rfl, fun hw => ?_⟩
      simp only [Instr.wellFormed, legalWidth, Bool.and_eq_true, decide_eq_true_eq] at hw
      have := convert_length f.toNat t.toNat pad hw.1.2 hw.2.1 _ (convert_fit _ _ _ _ _ hout) _ hout
      rwa [s.length_unitsA] at this
  | expand => cases h; exact ⟨rfl, rfl, by rw [length_expand, s.length_unitsA], rfl⟩
  | polymod => cases groups _ _ h; exact ⟨rfl, rfl, rfl⟩
  | ckcreate var => cases groups _ _ h; exact ⟨rfl, rfl, length_createChecksum _ _ _, rfl⟩
  | ckverify =>
    have h := groups _ _ h
    split at h <;> cases h
    exact ⟨rfl, rfl, rfl⟩
  | encode var =>
    obtain ⟨_, h83, _, hp⟩ := encodeReply_ok _ _ _ _ h
    subst hp
    rw [s.length_unitsA] at h83
    exact ⟨rfl, rfl, by rw [length_encodedString, List.length_map, s.length_unitsA, s.length_unitsB], rfl, h83⟩
  | decode =>
    simp only [rule, decodeReply] at h
    split at h
    · cases h
    · rename_i d hd
      cases h
      exact ⟨rfl, parts d hd⟩
  | encodeb var =>
    simp only [rule, encodebReply] at h
    split at h
    · cases h
    · rename_i out hout
      have hlen := convert_length 8 5 true (by omega) (by omega) _ (convert_fit _ _ _ _ _ hout) _ hout
      obtain ⟨_, h83, _, hp⟩ := encodeReply_ok _ _ _ _ h
      subst hp
      rw [s.length_unitsA] at h83
      refine ⟨rfl, rfl, ?_, rfl, h83⟩
      rw [length_encodedString, List.length_map, s.length_unitsA, hlen, s.length_unitsB, if_pos rfl]
      omega
  | decodeb var =>
    simp only [rule, decodebReply] at h
    split at h
    · cases h
    · rename_i d hd
      simp only [expectBytes] at h
      split at h
      · cases h
      · split at h
        · cases h
        · rename_i out hout
          cases h
          obtain ⟨h8, h90, hrp, data, hs, h6, hl, _, hpay⟩ := parts d hd
          refine ⟨rfl, rfl, h8, h90, hrp, data, hs, h6, hl, ?_⟩
          have hlen := convert_length 5 8 false (by omega) (by omega) _ (convert_fit _ _ _ _ _ hout) _ hout
          rw [hlen, hpay, if_neg (by decide), Nat.mul_comm]

end Sys2Proof.Machine
end

