-- ==== Sys2Proof/Tests/Slice0.lean ====
section
/-!
SUPPORT. The model's own tests. Expected values come from the rules' words and from
spec/95_test_vectors.md; the number in a test's comment is the vector's. After the tests stand the
witnesses: for each statement with hypotheses, a state and operands that meet them.
-/

namespace Sys2Proof.Tests

open Sys2Proof.Machine

/-- The units of a string of ASCII characters. -/
def ascii (str : String) : List Byte := str.toList.map (fun c => BitVec.ofNat 8 c.toNat)

/-- The reset state with two sequences presented to the block. -/
def presenting (a b : List Byte) : State :=
  { State.reset with
    inA := Memory.ofUnits a
    lenA := BitVec.ofNat 32 a.length
    inB := Memory.ofUnits b
    lenB := BitVec.ofNat 32 b.length }

/-- The same, with a command issued. -/
def issued (cmd : Word) (a b : List Byte) : State := { presenting a b with cmd := cmd, busy := true }

/-- The same, with an act of the host to come. -/
def acting (s : State) (events : List HostEvent) : State := { s with inputs := events }

/-- What a host reads after a completion. -/
structure Response where
  rsp : Word
  errPos : Word
  result : Word
  outA : Memory
  outB : Memory
  deriving DecidableEq, Repr

/-- The state one step answers, where it answers one. -/
def after (s : State) : Option State :=
  match step s with
  | .next t => some t
  | .fault _ => none
  | .refused _ => none

/-- The fault one step stops with, where it stops with one. -/
def stop (s : State) : Option Fault :=
  match step s with
  | .next _ => none
  | .fault f => some f
  | .refused _ => none

/-- The response one step leaves. -/
def answer (s : State) : Option Response :=
  (after s).map fun t => ⟨t.rsp, t.errPos, t.result, t.outA, t.outB⟩

/-- An operation ends with STATUS = Ok. -/
def returns (i : Instr) (s : State) : Prop := ∃ t, exec i s = .next t ∧ t.status = 0

/-- An operation ends with a STATUS other than Ok. -/
def fails (i : Instr) (s : State) : Prop := ∃ t, exec i s = .next t ∧ t.status ≠ 0

/-! ### Well-formedness (R56 item 4, R90) -/

theorem test_wellFormed_fromBits_0 : (Instr.convert true 0 5).wellFormed = false := by decide
theorem test_wellFormed_fromBits_9 : (Instr.convert true 9 5).wellFormed = false := by decide
theorem test_wellFormed_toBits_0 : (Instr.convert true 8 0).wellFormed = false := by decide
theorem test_wellFormed_toBits_9 : (Instr.convert true 8 9).wellFormed = false := by decide
theorem test_wellFormed_bounds :
    (Instr.convert true 1 8).wellFormed = true ∧ (Instr.convert false 8 1).wellFormed = true := by decide

/-! ### Decoding: each word is written out field by field from R51 and R52, ARG ++ 15:14 ++ TO ++ FROM ++
PAD ++ VARIANT ++ OP under bits 31:24 -/

theorem test_decode_csfwd :
    decodeCommand (0b00000000#8 ++ 0b00011111#8 ++ 0b00#2 ++ 0b0000#4 ++ 0b0000#4 ++ 0b0#1 ++ 0b0#1 ++ 0b0001#4)
      = .ok (.csfwd 31) := by decide

theorem test_decode_csinv :
    decodeCommand (0b00000000#8 ++ 0b01110001#8 ++ 0b00#2 ++ 0b0000#4 ++ 0b0000#4 ++ 0b0#1 ++ 0b0#1 ++ 0b0010#4)
      = .ok (.csinv 0x71) := by decide

theorem test_decode_convert :
    decodeCommand (0b00000000#8 ++ 0b00000000#8 ++ 0b00#2 ++ 0b0101#4 ++ 0b1000#4 ++ 0b1#1 ++ 0b0#1 ++ 0b0011#4)
      = .ok (.convert true 8 5) := by decide

theorem test_decode_convert_vector : decodeCommand 0x000010C3 = .ok (.convert false 3 4) := by decide

theorem test_decode_expand :
    decodeCommand (0b00000000#8 ++ 0b00000000#8 ++ 0b00#2 ++ 0b0000#4 ++ 0b0000#4 ++ 0b0#1 ++ 0b0#1 ++ 0b0100#4)
      = .ok .expand := by decide

theorem test_decode_polymod :
    decodeCommand (0b00000000#8 ++ 0b00000000#8 ++ 0b00#2 ++ 0b0000#4 ++ 0b0000#4 ++ 0b0#1 ++ 0b0#1 ++ 0b0101#4)
      = .ok .polymod := by decide

theorem test_decode_ckcreate :
    decodeCommand (0b00000000#8 ++ 0b00000000#8 ++ 0b00#2 ++ 0b0000#4 ++ 0b0000#4 ++ 0b0#1 ++ 0b1#1 ++ 0b0110#4)
      = .ok (.ckcreate .b) := by decide

theorem test_decode_ckverify :
    decodeCommand (0b00000000#8 ++ 0b00000000#8 ++ 0b00#2 ++ 0b0000#4 ++ 0b0000#4 ++ 0b0#1 ++ 0b0#1 ++ 0b0111#4)
      = .ok .ckverify := by decide

theorem test_decode_encode :
    decodeCommand (0b00000000#8 ++ 0b00000000#8 ++ 0b00#2 ++ 0b0000#4 ++ 0b0000#4 ++ 0b0#1 ++ 0b1#1 ++ 0b1000#4)
      = .ok (.encode .b) := by decide

theorem test_decode_decode :
    decodeCommand (0b00000000#8 ++ 0b00000000#8 ++ 0b00#2 ++ 0b0000#4 ++ 0b0000#4 ++ 0b0#1 ++ 0b0#1 ++ 0b1001#4)
      = .ok .decode := by decide

theorem test_decode_encodeb :
    decodeCommand (0b00000000#8 ++ 0b00000000#8 ++ 0b00#2 ++ 0b0000#4 ++ 0b0000#4 ++ 0b0#1 ++ 0b0#1 ++ 0b1010#4)
      = .ok (.encodeb .a) := by decide

theorem test_decode_decodeb :
    decodeCommand (0b00000000#8 ++ 0b00000000#8 ++ 0b00#2 ++ 0b0000#4 ++ 0b0000#4 ++ 0b0#1 ++ 0b1#1 ++ 0b1011#4)
      = .ok (.decodeb .b) := by decide

/-- R56 item 1: OP 0 is no no-operation, OP 12 to 15 are reserved. -/
theorem test_decode_reserved_opcodes :
    [0x00000000, 0x0000000C, 0x0000000D, 0x0000000E, 0x0000000F].all (fun w : Word => decide (decodeCommand w = .error .reservedOpcode)) = true := by decide

/-- R56 item 2: bits 14 and 24. -/
theorem test_decode_reserved_bits :
    [0x00005623, 0x01000009].all (fun w : Word => decide (decodeCommand w = .error .reservedBits)) = true := by decide

/-- R56 item 3: a field the operation does not use. -/
theorem test_decode_unused_fields :
    [0x00000019, 0x00000029, 0x000F0011, 0x00100004, 0x00001628, 0x00001633].all (fun w : Word => decide (decodeCommand w = .error .unusedField)) = true := by decide

theorem test_decodeTableWord : decodeTableWord 32 0x00000018 = some (.encode .b) := by decide

/-! ### One step of each operation -/

/-- M2 -/
theorem test_csfwd : answer (issued 0x000F0001 [] []) = some ⟨0, 0, 0, [(0, 0x30)], []⟩ := by decide
/-- M4 -/
theorem test_csfwd_32 : answer (issued 0x00200001 [] []) = some ⟨0xF, 0, 0, [], []⟩ := by decide
/-- M8 -/
theorem test_csinv : answer (issued 0x004C0002 [] []) = some ⟨0, 0, 0, [(0, 31)], []⟩ := by decide
/-- M12 -/
theorem test_csinv_invalid : answer (issued 0x00800002 [] []) = some ⟨0, 0, 0, [(0, 0xFF)], []⟩ := by
  decide

/-- Section 4: 18, 52 from 8 to 5 bits with padding. -/
theorem test_convert : answer (issued 0x00001623 [18, 52] []) =
    some ⟨0, 0, 0, [(0, 2), (1, 8), (2, 26), (3, 0)], []⟩ := by decide
/-- Section 4: 1, 32, 64 from 5 to 8 bits. -/
theorem test_convert_wide : answer (issued 0x00002143 [1, 32, 64] []) = some ⟨0xB, 1, 0, [], []⟩ := by
  decide

/-- CK5 -/
theorem test_expand : answer (issued 0x00000004 (ascii "bc") []) =
    some ⟨0, 0, 0, [(0, 3), (1, 3), (2, 0), (3, 2), (4, 3)], []⟩ := by decide
/-- CK4 -/
theorem test_expand_bit7 : answer (issued 0x00000004 [0xE1] []) =
    some ⟨0, 0, 0, [(0, 3), (1, 0), (2, 1)], []⟩ := by decide

/-- CK15 -/
theorem test_polymod : answer (issued 0x00000005 [31, 31, 31, 31, 31, 31, 31] []) =
    some ⟨0, 0, 0x34E587D2, [], []⟩ := by decide
/-- CK19 -/
theorem test_polymod_domain : answer (issued 0x00000005 [0, 32] []) = some ⟨0xF, 1, 0, [], []⟩ := by
  decide

/-- CK25 -/
theorem test_ckcreate : answer (issued 0x00000016 (ascii "bc") []) =
    some ⟨0, 0, 0, Memory.ofUnits [29, 7, 6, 9, 1, 30], []⟩ := by decide +kernel
/-- CK27 -/
theorem test_ckcreate_domain : answer (issued 0x00000006 (ascii "a") [5, 40]) = some ⟨0xF, 1, 0, [], []⟩ := by
  decide

/-- CK29 -/
theorem test_ckverify : answer (issued 0x00000007 (ascii "a") [31, 0, 9, 19, 17, 29]) =
    some ⟨0x10, 0, 0, [], []⟩ := by decide
/-- CK33 -/
theorem test_ckverify_domain : answer (issued 0x00000007 (ascii "a") [10, 28, 25, 31, 20, 63]) =
    some ⟨0xF, 5, 0, [], []⟩ := by decide

/-- E9 -/
theorem test_encode : answer (issued 0x00000008 (ascii "A1b") [1, 2, 3]) =
    some ⟨0, 0, 0, Memory.ofUnits (ascii "a1b1pzrumfgzg"), []⟩ := by decide +kernel
/-- E19 -/
theorem test_encode_domain : answer (issued 0x00000008 (ascii "a") [0, 32, 33]) = some ⟨0xF, 1, 0, [], []⟩ := by
  decide

/-- DV10 -/
theorem test_decode : answer (issued 0x00000009 (ascii "a1b1pzrumfgzg") []) =
    some ⟨0, 0, 0, Memory.ofUnits (ascii "a1b"), Memory.ofUnits [1, 2, 3]⟩ := by decide +kernel
/-- DV16 -/
theorem test_decode_mixed : answer (issued 0x00000009 (ascii "aB 1qqqqqq") []) = some ⟨6, 1, 0, [], []⟩ := by
  decide

/-- E23 -/
theorem test_encodeb : answer (issued 0x0000000A (ascii "a") [0x00]) =
    some ⟨0, 0, 0, Memory.ofUnits (ascii "a1qqqd87cq"), []⟩ := by decide +kernel
/-- E26 -/
theorem test_encodeb_empty : answer (issued 0x0000000A [] [1]) = some ⟨1, 0, 0, [], []⟩ := by decide

/-- B6 -/
theorem test_decodeb : answer (issued 0x0000000B (ascii "A1QQQD87CQ") (ascii "a")) =
    some ⟨0, 0, 0, [(0, 0)], []⟩ := by decide +kernel
/-- B9 -/
theorem test_decodeb_mismatch : answer (issued 0x0000001B (ascii "a1lmyple6") (ascii "a")) =
    some ⟨0xD, 0, 0, [], []⟩ := by decide +kernel

/-! ### Illegal commands, reset and the host -/

/-- R56 item 1: the word 0 is an illegal command. -/
theorem test_illegal_word : answer (issued 0x00000000 [] []) = some ⟨0xE, 0, 0, [], []⟩ := by decide

/-- R56 item 4: width 9. -/
theorem test_illegal_width : answer (issued 0x00001643 [1] []) = some ⟨0xE, 0, 0, [], []⟩ := by decide

/-- R56 item 5: no CAP is above 2^28. -/
theorem test_illegal_length :
    exec .expand { State.reset with lenA := 0x10000000 } =
      .next (State.afterError { State.reset with lenA := 0x10000000 } 14 0) := by
  refine exec_error _ _ .illegalCommand 0 (reply_illegal _ _ fun h => ?_)
  have hcap := cap_lt
  have hlen : (0x10000000#32).toNat ≤ Config.cap := h.2.1 rfl
  have hval : (0x10000000#32).toNat = 268435456 := rfl
  omega

/-- Issue (R12): CMD takes the word, BUSY is 1, nothing has completed. -/
theorem test_issue : after (acting (presenting [1] []) [.writeCmd 0x00000004]) =
    some (issued 0x00000004 [1] []) := by decide

/-- R182: a write of LEN_A while BUSY = 1. -/
theorem test_write_while_busy : stop (acting (issued 0x00000004 [1] []) [.writeLenA 2]) =
    some .hostWriteWhileBusy := by decide

/-- R13: a write of RSP is ignored. -/
theorem test_write_response : after (acting State.reset [.writeResponse .rsp 7]) = some State.reset := by
  decide

/-- R13: BUSY reads 1 while an operation is in flight. -/
theorem test_read_busy : after (acting (issued 0x00000004 [] []) [.readReg .busy]) =
    some { issued 0x00000004 [] [] with hostData := 1 } := by decide

/-- R180: reset while an operation is in flight. -/
theorem test_reset_event : after (acting (issued 0x00000004 [1] [2]) [.reset]) =
    some { State.reset with epoch := 1 } := by decide

/-- R30: unit 127 exists in every IN_A (CAP is at least 128). -/
theorem test_write_unit_127 : after (acting State.reset [.writeInA 127 9]) =
    some { State.reset with inA := [(127, 9)] } := by decide

/-! ### Witnesses: for each statement with hypotheses, a state and operands that meet them, at the edges of
their ranges -/

/-- A string of 90 characters that decodes: 83 before the last '1'. -/
def longest : List Byte :=
  ascii "an83characterlonghumanreadablepartthatcontainsthenumber1andtheexcludedcharactersbio1tt5tgs"

theorem witness_EncodedCommandsDecodeBack : decodeCommand 0x00002143 = .ok (.convert false 5 8) := by decide

theorem witness_StepCompletes_noAct :
    let s := issued 0x00001623 [18, 52] []
    s.busy = true ∧ decodeCommand s.cmd = .ok (.convert true 8 5) ∧ s.inputs = [] := by decide

theorem witness_StepCompletes_wait :
    let s := acting (issued 0x00001623 [18, 52] []) [.wait, .reset]
    s.busy = true ∧ decodeCommand s.cmd = .ok (.convert true 8 5) ∧ s.inputs = .wait :: [.reset] := by decide

theorem witness_StepCompletes_placed : decodeTableWord 32 0x0000001B = some (.decodeb .b) := by decide

/-- One word for each of R56's items 1 to 4, at both ends of item 1's range and of item 4's. -/
theorem witness_Illegal_words :
    [0x00000000, 0x0000000C, 0x0000000F, 0x00004009, 0x01000009, 0x00000019, 0x00000029, 0x00000049, 0x00000409,
      0x00010009, 0x00001403, 0x00001643, 0x00000203, 0x00002603].all (fun w : Word =>
        decide ((issued w [] []).busy = true ∧ (issued w [] []).inputs = [] ∧ illegalWord (issued w [] []).cmd))
      = true := by decide

theorem cap_lt_length : Config.cap < (0x10000000 : Word).toNat := cap_lt

theorem witness_Illegal_lengthA : illegalLengths 0x00000003 0x10000000 0 ∧ illegalLengths 0x0000000B 0x10000000 0 :=
  ⟨.inl ⟨by decide, by decide, cap_lt_length⟩, .inl ⟨by decide, by decide, cap_lt_length⟩⟩

theorem witness_Illegal_lengthB : illegalLengths 0x00000006 0 0x10000000 ∧ illegalLengths 0x0000000B 0 0x10000000 :=
  ⟨.inr ⟨by decide, cap_lt_length⟩, .inr ⟨by decide, cap_lt_length⟩⟩

/-- Widths 8 and 1, LEN_A = 128, which no CAP excludes. -/
theorem witness_Illegal_not :
    let s : State := { issued 0x00000603 [] [] with lenA := 128 }
    s.busy = true ∧ s.inputs = [] ∧ ¬ (illegalWord s.cmd ∨ illegalLengths s.cmd s.lenA s.lenB) := by
  have hcap := cap_ge
  refine ⟨rfl, rfl, ?_⟩
  rintro (h | ⟨_, _, h⟩ | ⟨h, _⟩)
  · exact absurd h (by decide)
  · have hval : (128#32).toNat = 128 := rfl
    have hlt : Config.cap < (128#32).toNat := h
    omega
  · exact absurd h (by decide)

theorem witness_CompletionIsReached :
    let s := acting (issued 0x00000004 [1] [])
      [.readReg .busy, .writeResponse .rsp 1, .readOutA (8 * Config.cap + 7), .readOutB 127, .wait]
    s.busy = true ∧ ∀ e ∈ s.inputs, e = .wait ∨ (∃ r, e = .readReg r) ∨ (∃ r v, e = .writeResponse r v) ∨
      (∃ k, e = .readOutA k ∧ k < 8 * Config.cap + 8) ∨ (∃ k, e = .readOutB k ∧ k < Config.cap) := by
  have hcap := cap_ge
  refine ⟨rfl, fun e he => ?_⟩
  simp only [acting, List.mem_cons, List.not_mem_nil, or_false] at he
  rcases he with rfl | rfl | rfl | rfl | rfl
  · exact .inr (.inl ⟨_, rfl⟩)
  · exact .inr (.inr (.inl ⟨_, _, rfl⟩))
  · exact .inr (.inr (.inr (.inl ⟨_, rfl, by omega⟩)))
  · exact .inr (.inr (.inr (.inr ⟨_, rfl, by omega⟩)))
  · exact .inl rfl

theorem witness_HostWrites_registers :
    ∀ e ∈ [HostEvent.writeCmd 0xFFFFFFFF, .writeLenA 0xFFFFFFFF, .writeLenB 0],
      (acting State.reset [e]).busy = false ∧ (acting State.reset [e]).inputs = e :: [] := by decide

theorem witness_HostWrites_units :
    ∀ e ∈ [HostEvent.writeInA 127 0xFF, .writeInB 127 0xFF],
      (acting State.reset [e]).busy = false ∧ 127 < Config.cap ∧ (acting State.reset [e]).inputs = e :: [] :=
  fun _ _ => ⟨rfl, cap_ge, rfl⟩

theorem witness_ResponseRegistersIgnoreHostWrites :
    (acting (issued 0x00000004 [] []) [.writeResponse .busy 0]).inputs = .writeResponse .busy 0 :: [] := rfl

theorem witness_HostReadsRegisters :
    ∀ r ∈ [Reg.cmd, .lenA, .lenB, .busy, .rsp, .errPos, .result, .lenOA, .lenOB],
      (acting (issued 0x00000004 [1] []) [.readReg r]).inputs = .readReg r :: [] ∧
      (acting (issued 0x00000004 [1] []) [.readReg r]).busy = true ∧
      (acting (presenting [1] []) [.readReg r]).inputs = .readReg r :: [] ∧
      (acting (presenting [1] []) [.readReg r]).busy = false := by decide

/-- A state with one valid unit in each output buffer. -/
def answered : State := { State.reset with outA := [(0, 7)], lenOA := 1, outB := [(0, 8)], lenOB := 1 }

theorem witness_HostReadsOutputUnits_valid :
    (acting answered [.readOutA 0]).outA.read 0 = some 7 ∧ (acting answered [.readOutB 0]).outB.read 0 = some 8 ∧
    0 < 8 * Config.cap + 8 ∧ 0 < Config.cap ∧ answered.busy = false := by
  have hcap := cap_ge
  exact ⟨rfl, rfl, by omega, by omega, rfl⟩

theorem witness_HostReadsOutputUnits_notValid :
    (acting answered [.readOutA (8 * Config.cap + 7)]).outA.read (8 * Config.cap + 7) = none ∧
    (acting answered [.readOutB 127]).outB.read 127 = none ∧
    8 * Config.cap + 7 < 8 * Config.cap + 8 ∧ 127 < Config.cap := by
  have hcap := cap_ge
  refine ⟨?_, rfl, by omega, by omega⟩
  simp [acting, answered, Memory.read]

theorem witness_HostReadsOutputUnits_busy : ({ answered with busy := true } : State).busy = true := rfl

theorem witness_HostWritesWhileBusyStop :
    ∀ e ∈ [HostEvent.writeCmd 0, .writeLenA 0, .writeLenB 0, .writeInA 127 0, .writeInB 127 0],
      (acting (issued 0x00000004 [] []) [e]).busy = true ∧
      (acting (issued 0x00000004 [] []) [e]).inputs = e :: [] ∧ 127 < Config.cap :=
  fun _ _ => ⟨rfl, rfl, cap_ge⟩

theorem witness_NoUnitBeyondTheCapacity :
    (acting State.reset [.writeInA Config.cap 0]).inputs = .writeInA Config.cap 0 :: [] ∧
    (acting State.reset [.writeInB Config.cap 0]).inputs = .writeInB Config.cap 0 :: [] ∧
    (acting State.reset [.readOutA (8 * Config.cap + 8)]).inputs = .readOutA (8 * Config.cap + 8) :: [] ∧
    (acting State.reset [.readOutB Config.cap]).inputs = .readOutB Config.cap :: [] := ⟨rfl, rfl, rfl, rfl⟩

theorem witness_ResetEventClearsTheBlock :
    (acting (issued 0x00000004 [1] []) [.reset, .wait]).inputs = .reset :: [.wait] := rfl

theorem witness_EveryStepKeepsTheInvariant : (issued 0x00000004 [1] []).Inv ∧
    step (issued 0x00000004 [1] []) = .next ((issued 0x00000004 [1] []).finish (reply .expand (issued 0x00000004 [1] []))) := by
  have hcap := cap_ge
  refine ⟨⟨by decide, by decide, by decide, by decide, ?_, ?_, ?_, ?_, ?_, ?_, by decide, by decide, ?_⟩,
    exec_eq .expand (issued 0x00000004 [1] [])⟩
  · intro i hi
    rw [show (issued 0x00000004 [1] []).inA = Memory.ofUnits [1] from rfl, Memory.isSome_read_ofUnits] at hi
    have hone : ([1] : List Byte).length = 1 := rfl
    omega
  · intro i hi; exact absurd hi (by simp [issued, presenting, Memory.ofUnits, Memory.fromIndex])
  · intro i; simp [issued, presenting, State.reset]
  · intro i; simp [issued, presenting, State.reset]
  · exact Nat.zero_le _
  · exact Nat.zero_le _
  · intro h; exact absurd h (by decide)

theorem witness_Failure : fails (.csfwd 32) State.reset ∧ fails .decode (presenting (ascii "a12uel5!") []) :=
  ⟨⟨_, exec_eq _ _, by decide⟩, ⟨_, exec_eq _ _, by decide⟩⟩

theorem witness_Success :
    (∃ t, exec .ckverify (presenting (ascii "a") [31, 0, 9, 19, 17, 29]) = .next t ∧ t.status = 0 ∧ t.varOut = true) ∧
    (∃ t, exec .polymod (presenting [] []) = .next t ∧ t.status = 0 ∧ t.result ≠ 0) ∧
    (∃ t, exec .decode (presenting (ascii "a1qqqd87cq") []) = .next t ∧ t.status = 0 ∧ t.lenOB ≠ 0) :=
  ⟨⟨_, exec_eq _ _, by decide⟩, ⟨_, exec_eq _ _, by decide⟩, ⟨_, exec_eq _ _, by decide +kernel⟩⟩

theorem witness_StatusStaysInTheMatrix :
    (issued 0x00200001 [] []).busy = true ∧ (issued 0x00200001 [] []).inputs = [] ∧
    step (issued 0x00200001 [] []) = .next ((issued 0x00200001 [] []).finish (reply (.csfwd 32) (issued 0x00200001 [] []))) :=
  ⟨rfl, rfl, exec_eq (.csfwd 32) (issued 0x00200001 [] [])⟩

/-- Two states that differ in IN_B, LEN_B and CMD, which EXPAND does not read. -/
theorem witness_ResponseDependsOnlyOnTheInputsRead :
    let s := presenting [0x62, 0x63] []
    let u := issued 0x00000004 [0x62, 0x63] [7]
    readsB .expand = false ∧ s.lenA = u.lenA ∧ (∀ k, k < s.lenA.toNat → s.unitA k = u.unitA k) ∧
    (∃ t, exec .expand s = .next t) ∧ (∃ t, exec .expand u = .next t) :=
  ⟨rfl, rfl, by decide, ⟨_, exec_eq _ _⟩, ⟨_, exec_eq _ _⟩⟩

theorem witness_OutputLengths_fields :
    returns (.csfwd 31) State.reset ∧ returns (.csinv 0xFF) State.reset ∧
    returns (.convert true 8 5) (presenting [255] []) ∧ returns (.convert false 5 8) (presenting [31, 28] []) ∧
    returns .expand (presenting [] []) ∧ returns .polymod (presenting [31] []) ∧
    returns (.ckcreate .b) (presenting [] [31]) ∧ returns .ckverify (presenting [0x61] [10, 28, 25, 31, 20, 31]) :=
  ⟨⟨_, exec_eq _ _, by decide⟩, ⟨_, exec_eq _ _, by decide⟩, ⟨_, exec_eq _ _, by decide⟩,
    ⟨_, exec_eq _ _, by decide⟩, ⟨_, exec_eq _ _, by decide⟩, ⟨_, exec_eq _ _, by decide⟩,
    ⟨_, exec_eq _ _, by decide⟩, ⟨_, exec_eq _ _, by decide⟩⟩

theorem witness_OutputLengths_strings :
    returns (.encode .a) (presenting [0x61] [31]) ∧ returns (.encodeb .b) (presenting [0x61] [255]) ∧
    returns .decode (presenting (ascii "a12uel5l") []) ∧
    returns (.decodeb .a) (presenting (ascii "a12uel5l") [0x61]) ∧
    splitsAt (presenting (ascii "a12uel5l") []).unitsA (ascii "a") (ascii "2uel5l") :=
  ⟨⟨_, exec_eq _ _, by decide⟩, ⟨_, exec_eq _ _, by decide⟩, ⟨_, exec_eq _ _, by decide⟩,
    ⟨_, exec_eq _ _, by decide⟩, by decide⟩

theorem witness_OperandsAreTheUnitsTheHostWrote :
    0 < (presenting [1] [2]).lenA.toNat ∧ 0 < (presenting [1] [2]).lenB.toNat := by decide

theorem witness_CharsetMappingsAreInverse :
    (0x41 ≤ (0x41 : Byte).toNat ∧ (0x5A : Byte).toNat ≤ 0x5A) ∧
    ¬ (0x41 ≤ (0x40 : Byte).toNat ∧ (0x40 : Byte).toNat ≤ 0x5A) ∧ ¬ (0x41 ≤ (0x5B : Byte).toNat ∧ (0x5B : Byte).toNat ≤ 0x5A) ∧
    (31 : Byte).toNat ≤ 31 ∧ valueOf 0x7A ≠ 0xFF ∧ 128 ≤ (0x80 : Byte).toNat := by decide

theorem witness_ExpandLaysOutThePrefix : ([0x61, 0xE1] : List Byte)[1]? = some 0xE1 := rfl

theorem witness_PolymodFoldsEachValue : (31 : Byte).toNat ≤ 31 := by decide

theorem witness_CreatedChecksumVerifies :
    (polymod (expand (ascii "a") ++ [10, 28, 25, 31, 20, 31])).toNat = 1 ∧
    (polymod (expand (ascii "a") ++ [31, 0, 9, 19, 17, 29])).toNat = 0x2BC830A3 ∧
    (polymod (expand [] ++ [])).toNat ≠ 1 ∧ (polymod (expand [] ++ [])).toNat ≠ 0x2BC830A3 ∧
    areGroups [0, 31] := by decide

theorem witness_ConvertReslicesTheBitStream :
    (∀ v ∈ ([0, 1] : List Byte), v.toNat < 2 ^ 1) ∧ (∀ v ∈ ([0, 255] : List Byte), v.toNat < 2 ^ 8) ∧
    2 ^ 1 ≤ (2 : Byte).toNat ∧ 2 ^ 7 ≤ (128 : Byte).toNat := by decide

theorem witness_ConvertLengthsAndBounds :
    convert [255] 8 5 true = .ok [31, 28] ∧ convert [31, 28] 5 8 false = .ok [255] ∧
    ([31] : List Byte).length % 8 = 1 ∧ ([31, 31, 31] : List Byte).length % 8 = 3 ∧
    ([0, 0, 0, 0, 0, 0] : List Byte).length % 8 = 6 ∧ (∀ v ∈ ([31] : List Byte), v.toNat < 2 ^ 5) := by decide

/-! Results -/

theorem witness_CsfwdGivesTheCharacter : (31 : BitVec 8).toNat ≤ 31 := by decide

theorem witness_CsinvGivesTheIndex :
    (0x4C : BitVec 8).toNat = ("QPZRY9X8GF2TVDW0S3JN54KHCE6MUA7L".toList.getD 31 ' ').toNat ∧
    ∀ c : Char, c ∈ "qpzry9x8gf2tvdw0s3jn54khce6mua7lQPZRYXGFTVDWSJNKHCEMUAL".toList → (0x80 : BitVec 8).toNat ≠ c.toNat := by
  refine ⟨by decide, fun c hc => ?_⟩
  have hall : ("qpzry9x8gf2tvdw0s3jn54khce6mua7lQPZRYXGFTVDWSJNKHCEMUAL".toList.all
      fun c => decide ((0x80 : BitVec 8).toNat ≠ c.toNat)) = true := by decide
  exact of_decide_eq_true (List.all_eq_true.mp hall c hc)

theorem witness_ConvertDeliversTheUnits :
    let s := presenting [1, 0, 1] []
    s.lenA.toNat ≤ Config.cap ∧ (∀ v ∈ s.unitsA, v.toNat < 2 ^ (1 : BitVec 4).toNat) ∧
    resliced (1 : BitVec 4).toNat (8 : BitVec 4).toNat true (bitStream (1 : BitVec 4).toNat s.unitsA) = .ok [160] := by
  have hcap := cap_ge
  refine ⟨?_, by decide, by decide⟩
  have hlen : (presenting [1, 0, 1] []).lenA.toNat = 3 := rfl
  omega

theorem witness_ExpandDeliversTheExpansion : ({ State.reset with lenA := 128 } : State).lenA.toNat ≤ Config.cap := cap_ge

theorem witness_PolymodDeliversTheResult :
    (presenting [0, 31] []).lenA.toNat ≤ 128 ∧ areGroups (presenting [0, 31] []).unitsA := by decide

theorem witness_CkcreateDeliversTheChecksum :
    (presenting [] [0, 31]).lenA.toNat ≤ 128 ∧ (presenting [] [0, 31]).lenB.toNat ≤ 128 ∧
    areGroups (presenting [] [0, 31]).unitsB := by decide

theorem witness_CkverifyDeliversTheVariant :
    let s := presenting [0x61] [31, 0, 9, 19, 17, 29]
    s.lenA.toNat ≤ 128 ∧ s.lenB.toNat ≤ 128 ∧ areGroups s.unitsB ∧
    (polymod (expand s.unitsA ++ s.unitsB)).toNat = (if Variant.b = .b then 0x2BC830A3 else 1) := by decide

/-- Prefixes of 1 and of 83 characters. -/
theorem witness_EncodeDeliversTheString :
    (presenting [0x61] [31]).lenA.toNat = 1 ∧ areGroups (presenting [0x61] [31]).unitsB ∧
    (presenting (List.replicate 83 0x61) []).lenA.toNat = 83 ∧ areGroups (presenting (List.replicate 83 0x61) []).unitsB := by
  decide

theorem witness_EncodebDeliversTheString :
    (presenting [0x61] [255]).lenA.toNat = 1 ∧ (presenting [0x61] [255]).lenB.toNat ≤ 128 ∧
    (presenting (List.replicate 83 0x61) []).lenA.toNat = 83 := by decide

theorem witness_DecodeDeliversTheParts :
    let s := presenting (ascii "A1LQFN3A") []
    8 ≤ s.lenA.toNat ∧ s.lenA.toNat ≤ 90 ∧ cleanChars s.unitsA ∧ splitsAt s.unitsA (ascii "A") (ascii "LQFN3A") ∧
    ascii "A" ≠ [] ∧ 6 ≤ (ascii "LQFN3A").length ∧ inAlphabet (ascii "LQFN3A") ∧
    (stringPolymod (ascii "A") (ascii "LQFN3A")).toNat = (if Variant.b = .b then 0x2BC830A3 else 1) := by decide

/-- 90 characters, with a '1' inside the prefix. -/
theorem witness_DecodeDeliversTheParts_longest :
    let s := presenting longest []
    let hrp := longest.take 83
    let data := longest.drop 84
    s.lenA.toNat = 90 ∧ cleanChars s.unitsA ∧ splitsAt s.unitsA hrp data ∧ hrp ≠ [] ∧ data.length = 6 ∧
    inAlphabet data ∧ (stringPolymod hrp data).toNat = (if Variant.a = .b then 0x2BC830A3 else 1) := by decide +kernel

theorem witness_DecodebDeliversTheBytes :
    let s := presenting (ascii "A1QQQD87CQ") (ascii "a")
    let data := ascii "QQQD87CQ"
    8 ≤ s.lenA.toNat ∧ s.lenA.toNat ≤ 90 ∧ s.lenB.toNat ≤ 128 ∧ cleanChars s.unitsA ∧
    splitsAt s.unitsA (ascii "A") data ∧ ascii "A" ≠ [] ∧ 6 ≤ data.length ∧ inAlphabet data ∧
    (stringPolymod (ascii "A") data).toNat = (if Variant.a = .b then 0x2BC830A3 else 1) ∧
    (ascii "A").map lower = s.unitsB ∧
    resliced 5 8 false (bitStream 5 ((data.map valueOf).take (data.length - 6))) = .ok [0] := by decide +kernel

/-! Errors -/

theorem witness_PrefixEmpty_encode : (presenting [] [32]).lenA.toNat = 0 ∧ (presenting [] [32]).lenB.toNat ≤ 128 := by
  decide

theorem witness_PrefixEmpty_decode :
    let s := presenting (ascii "1qzzfhee") []
    decodesString .decode s ∧ decodesString (.decodeb .a) s ∧ 8 ≤ s.lenA.toNat ∧ s.lenA.toNat ≤ 90 ∧
    cleanChars s.unitsA ∧ splitsAt s.unitsA [] (ascii "qzzfhee") := by
  refine ⟨.inl rfl, .inr ⟨.a, rfl, Nat.zero_le _⟩, ?_⟩
  decide

theorem witness_PrefixTooLong_encode :
    let s : State := { State.reset with lenA := 84 }
    83 < s.lenA.toNat ∧ s.lenA.toNat ≤ 128 ∧ s.lenB.toNat ≤ 128 := by decide

theorem witness_PrefixTooLong_decode :
    ∃ t, exec .decode (presenting longest []) = .next t := ⟨_, exec_eq _ _⟩

theorem witness_StringTooShort :
    decodesString .decode (presenting [] []) ∧ (presenting [] []).lenA.toNat < 8 ∧
    decodesString (.decodeb .b) (presenting (ascii "a12uel5") []) ∧ (presenting (ascii "a12uel5") []).lenA.toNat < 8 :=
  ⟨.inl rfl, by decide, .inr ⟨.b, rfl, Nat.zero_le _⟩, by decide⟩

theorem witness_StringTooLong :
    let s : State := { State.reset with lenA := 91 }
    let u : State := { State.reset with lenA := 128 }
    let o : State := { State.reset with lenA := 0x10000000 }
    decodesString .decode s ∧ 90 < s.lenA.toNat ∧ s.lenA.toNat ≤ Config.cap ∧
    decodesString (.decodeb .a) u ∧ 90 < u.lenA.toNat ∧ u.lenA.toNat ≤ Config.cap ∧
    decodesString .decode o ∧ Config.cap < o.lenA.toNat := by
  have hcap := cap_ge
  have hlt := cap_lt
  have h91 : (91#32).toNat = 91 := rfl
  have h128 : (128#32).toNat = 128 := rfl
  have hbig : (0x10000000#32).toNat = 268435456 := rfl
  exact ⟨.inl rfl, by decide, by show (91#32).toNat ≤ _; omega, .inr ⟨.a, rfl, Nat.zero_le _⟩, by decide,
    by show (128#32).toNat ≤ _; omega, .inl rfl, by show _ < (0x10000000#32).toNat; omega⟩

/-- Below 33, and 127 as the last character. -/
theorem witness_InvalidCharacterCode :
    let s := presenting (ascii " 1nwldj5") []
    let u := presenting (ascii "a12uel5" ++ [0x7F]) []
    8 ≤ s.lenA.toNat ∧ s.unitsA = [] ++ 0x20 :: ascii "1nwldj5" ∧ cleanChars [] ∧ (0x20 : Byte).toNat < 33 ∧
    8 ≤ u.lenA.toNat ∧ u.unitsA = ascii "a12uel5" ++ 0x7F :: [] ∧ cleanChars (ascii "a12uel5") ∧ 126 < (0x7F : Byte).toNat := by
  decide

theorem witness_MixedCase :
    let s := presenting (ascii "a12uel5L") []
    let u := presenting (ascii "Ab12uel5") []
    8 ≤ s.lenA.toNat ∧ s.unitsA = ascii "a12uel5" ++ 0x4C :: [] ∧ cleanChars (ascii "a12uel5") ∧ upperCode 0x4C ∧
    (∃ d ∈ ascii "a12uel5", lowerCode d) ∧
    8 ≤ u.lenA.toNat ∧ u.unitsA = ascii "A" ++ 0x62 :: ascii "12uel5" ∧ cleanChars (ascii "A") ∧ lowerCode 0x62 ∧
    (∃ d ∈ ascii "A", upperCode d) := by decide

theorem witness_MissingSeparator :
    let s := presenting (ascii "!!!!!!!!") []
    8 ≤ s.lenA.toNat ∧ s.lenA.toNat ≤ 90 ∧ cleanChars s.unitsA ∧ (0x31 : Byte) ∉ s.unitsA := by decide

/-- No character after the last '1', and five. -/
theorem witness_DataPartTooShort :
    let s := presenting (ascii "12345671") []
    let u := presenting (ascii "ab1qqqqq") []
    cleanChars s.unitsA ∧ splitsAt s.unitsA (ascii "1234567") [] ∧ ascii "1234567" ≠ [] ∧
    cleanChars u.unitsA ∧ splitsAt u.unitsA (ascii "ab") (ascii "qqqqq") ∧ (ascii "qqqqq").length < 6 := by decide

theorem witness_UnknownCharacter :
    let s := presenting (ascii "x1b4n0q5v") []
    8 ≤ s.lenA.toNat ∧ s.lenA.toNat ≤ 90 ∧ cleanChars s.unitsA ∧
    splitsAt s.unitsA (ascii "x") ([] ++ 0x62 :: ascii "4n0q5v") ∧ inAlphabet [] ∧ valueOf 0x62 = 0xFF ∧
    6 ≤ ([] ++ 0x62 :: ascii "4n0q5v").length := by decide

theorem witness_ChecksumInvalid_string :
    let s := presenting (ascii "A1G7SGD8") []
    8 ≤ s.lenA.toNat ∧ cleanChars s.unitsA ∧ splitsAt s.unitsA (ascii "A") (ascii "G7SGD8") ∧ inAlphabet (ascii "G7SGD8") ∧
    (stringPolymod (ascii "A") (ascii "G7SGD8")).toNat ≠ 1 ∧
    (stringPolymod (ascii "A") (ascii "G7SGD8")).toNat ≠ 0x2BC830A3 := by decide

theorem witness_ChecksumInvalid_ckverify :
    let s := presenting [] []
    s.lenA.toNat ≤ 128 ∧ s.lenB.toNat ≤ 128 ∧ areGroups s.unitsB ∧
    (polymod (expand s.unitsA ++ s.unitsB)).toNat ≠ 1 ∧ (polymod (expand s.unitsA ++ s.unitsB)).toNat ≠ 0x2BC830A3 := by
  decide

/-- Width 1 at the first unit, width 7 after one that fits. -/
theorem witness_BitValueExceedsWidth :
    (presenting [2] []).unitsA = [] ++ 2 :: [] ∧ 2 ^ (1 : BitVec 4).toNat ≤ (2 : Byte).toNat ∧
    (presenting [127, 128] []).unitsA = [127] ++ 128 :: [] ∧ (∀ u ∈ ([127] : List Byte), u.toNat < 2 ^ (7 : BitVec 4).toNat) ∧
    2 ^ (7 : BitVec 4).toNat ≤ (128 : Byte).toNat ∧
    (∃ t, exec (.convert false 7 8) (presenting [127, 128] []) = .next t ∧ t.status = 11) :=
  ⟨by decide, by decide, by decide, by decide, by decide, ⟨_, exec_eq _ _, by decide⟩⟩

/-- A whole unit left over, and a one bit left over. -/
theorem witness_InvalidPadding_convert :
    let s := presenting [0, 0, 0] []
    let u := presenting [31, 29] []
    (∀ v ∈ s.unitsA, v.toNat < 2 ^ 5) ∧ 5 ≤ (leftoverBits 8 (bitStream 5 s.unitsA)).length ∧
    (∀ v ∈ u.unitsA, v.toNat < 2 ^ 5) ∧ true ∈ leftoverBits 8 (bitStream 5 u.unitsA) := by decide

theorem witness_InvalidPadding_decodeb :
    let s := presenting (ascii "a1lmyple6") (ascii "a")
    let data := ascii "lmyple6"
    8 ≤ s.lenA.toNat ∧ s.lenA.toNat ≤ 90 ∧ s.lenB.toNat ≤ 128 ∧ cleanChars s.unitsA ∧
    splitsAt s.unitsA (ascii "a") data ∧ 6 ≤ data.length ∧ inAlphabet data ∧
    (stringPolymod (ascii "a") data).toNat = (if Variant.a = .b then 0x2BC830A3 else 1) ∧
    (ascii "a").map lower = s.unitsB ∧
    5 ≤ (leftoverBits 8 (bitStream 5 ((data.map valueOf).take (data.length - 6)))).length := by decide +kernel

theorem witness_VariantOrPrefixMismatch :
    let s := presenting (ascii "a12uel5l") (ascii "A")
    8 ≤ s.lenA.toNat ∧ s.lenB.toNat ≤ 128 ∧ cleanChars s.unitsA ∧ splitsAt s.unitsA (ascii "a") (ascii "2uel5l") ∧
    inAlphabet (ascii "2uel5l") ∧
    (stringPolymod (ascii "a") (ascii "2uel5l")).toNat = (if Variant.a = .b then 0x2BC830A3 else 1) ∧
    Variant.a ≠ .b ∧ (ascii "a").map lower ≠ s.unitsB := by decide

theorem witness_OperandOutOfDomain :
    31 < (32 : BitVec 8).toNat ∧ (presenting [0, 32] []).unitsA = [0] ++ 32 :: [] ∧ areGroups [0] ∧
    (presenting [0x61] [31, 255]).unitsB = [31] ++ 255 :: [] ∧ areGroups [31] ∧ 31 < (255 : Byte).toNat ∧
    (presenting [0x61] [31, 255]).lenA.toNat = 1 := by decide

/-! Laws over several operations -/

theorem witness_AcceptedStringsSatisfyEveryCheck : returns .decode (presenting (ascii "A12UEL5L") []) :=
  ⟨_, exec_eq _ _, by decide +kernel⟩

/-- A prefix of one character and 82 values: 90 characters in all. -/
theorem witness_RoundTrip_values :
    let s := presenting [0x7E] (List.replicate 82 31)
    1 ≤ s.lenA.toNat ∧ s.lenA.toNat ≤ 83 ∧ (∀ c ∈ s.unitsA, 33 ≤ c.toNat ∧ c.toNat ≤ 126) ∧ areGroups s.unitsB ∧
    s.lenA.toNat + s.lenB.toNat + 7 = 90 := by decide

/-- What ENCODE made of it can be presented again. -/
theorem witness_RoundTrip_presented : (presenting (ascii "a12uel5l") []).unitsA = ascii "a12uel5l" := by decide

/-- A prefix of two characters and 50 bytes: 80 groups, 89 characters. -/
theorem witness_RoundTrip_bytes :
    let s := presenting [0x21, 0x41] (List.replicate 50 255)
    1 ≤ s.lenA.toNat ∧ s.lenA.toNat ≤ 83 ∧ (∀ c ∈ s.unitsA, 33 ≤ c.toNat ∧ c.toNat ≤ 126) ∧
    s.lenA.toNat + (8 * s.lenB.toNat + 4) / 5 + 7 ≤ 90 := by decide

/-- Two prefixes that differ in case only. -/
theorem witness_EncoderOutputIsLowercase :
    returns (.encode .a) (presenting (ascii "A") []) ∧ returns (.encodeb .b) (presenting (ascii "A") [255]) ∧
    (presenting (ascii "a") []).lenB = (presenting (ascii "A") []).lenB ∧
    (presenting (ascii "a") []).unitsA.map lower = (presenting (ascii "A") []).unitsA.map lower :=
  ⟨⟨_, exec_eq _ _, by decide⟩, ⟨_, exec_eq _ _, by decide⟩, rfl, by decide⟩

/-- E23 in two steps. -/
theorem witness_MacroOperations_encodeb :
    let s := presenting (ascii "a") [0]
    let c := presenting [0] []
    let e := presenting (ascii "a") [0, 0]
    s.lenA.toNat ≤ 128 ∧ s.lenB.toNat ≤ 128 ∧ e.lenB.toNat ≤ 128 ∧ c.unitsA = s.unitsB ∧ e.unitsA = s.unitsA ∧
    ∃ c', exec (.convert true 8 5) c = .next c' ∧ c'.status = 0 ∧ Memory.ofUnits e.unitsB = c'.outA :=
  ⟨by decide, by decide, by decide, by decide, by decide, ⟨_, exec_eq _ _, by decide⟩⟩

/-- B2 in two steps, and B3. -/
theorem witness_MacroOperations_decodeb :
    let s := presenting (ascii "a1qqqd87cq") (ascii "a")
    let d := presenting (ascii "a1qqqd87cq") []
    let c := presenting [0, 0] []
    s.lenB.toNat ≤ 128 ∧ d.unitsA = s.unitsA ∧
    ∃ d', exec .decode d = .next d' ∧ d'.status = 0 ∧ d'.varOut = Variant.a.bit ∧ d'.outA = Memory.ofUnits s.unitsB ∧
      Memory.ofUnits c.unitsA = d'.outB ∧ ¬ (d'.varOut = Variant.b.bit) :=
  ⟨by decide, by decide, ⟨_, exec_eq _ _, by decide +kernel⟩⟩

/-- DECODE fails on the string DECODEB is given. -/
theorem witness_MacroOperations_decodeb_failing :
    ∃ d', exec .decode (presenting (ascii "a1qqqqqq") []) = .next d' ∧ d'.status ≠ 0 :=
  ⟨_, exec_eq _ _, by decide⟩

end Sys2Proof.Tests
end

section
/-!
PROOF of O60 (R60). ENCODEB and DECODEB against their expansions: each is an equation between what two
operations end with (`reply`), and operations that end with the same thing leave the same response.
-/

namespace Sys2Proof.Machine

/-- Two states show the host the same response: the registers of R13 but BUSY, and both output buffers. -/
def State.SameResponse (t u : State) : Prop :=
  t.rsp = u.rsp ∧ t.errPos = u.errPos ∧ t.result = u.result ∧ t.lenOA = u.lenOA ∧
    t.lenOB = u.lenOB ∧ t.outA = u.outA ∧ t.outB = u.outB

/-- The response written at completion does not depend on the state it is written to (R36). -/
theorem State.finish_sameResponse (s u : State) (r : Except Raise Reply) :
    (s.finish r).SameResponse (u.finish r) := by
  cases r with
  | error e => exact ⟨rfl, rfl, rfl, rfl, rfl, rfl, rfl⟩
  | ok p => exact ⟨rfl, rfl, rfl, rfl, rfl, rfl, rfl⟩

/-- Operations that end with the same thing leave the same response, each on its own state. -/
theorem exec_sameResponse {i j : Instr} {s u t t' : State} (h : reply i s = reply j u)
    (hs : exec i s = .next t) (hu : exec j u = .next t') : t.SameResponse t' := by
  rw [exec_eq, Host.Outcome.next.injEq] at hs hu
  rw [← hs, ← hu, h]
  exact State.finish_sameResponse s u _

/-- STATUS tells that an operation returned (R150, R151). -/
theorem exec_status_zero {i : Instr} {s t : State} (h : exec i s = .next t) (h0 : t.status = 0) :
    ∃ p, reply i s = .ok p ∧ t = s.afterOk p.var (p.result.setWidth 32) p.outA p.outB := by
  rcases exec_cases i s t h with ⟨e, _, ht⟩ | hok
  · rw [ht, State.afterError_status] at h0
    exact absurd h0 e.kind.code_ne_zero
  · exact hok

/-- STATUS tells that an operation raised an error (R150, R151). -/
theorem exec_status_ne_zero {i : Instr} {s t : State} (h : exec i s = .next t) (h0 : t.status ≠ 0) :
    ∃ e, reply i s = .error e := by
  rcases exec_cases i s t h with ⟨e, he, _⟩ | ⟨p, _, ht⟩
  · exact ⟨e, he⟩
  · rw [ht, State.afterOk_status] at h0
    exact absurd rfl h0

/-- Only a legal command returns, and then with its rule's result (R56, R165). -/
theorem reply_ok {i : Instr} {s : State} {p : Reply} (h : reply i s = .ok p) :
    lengthsLegal i s ∧ rule i s = .ok p := by
  unfold reply at h
  split at h
  · next hlegal => exact ⟨hlegal.2, h⟩
  · cases h

/-- States that present the same sequence in IN_A have the same LEN_A. -/
theorem State.lenA_eq_of_unitsA_eq {s u : State} (h : s.unitsA = u.unitsA) : s.lenA.toNat = u.lenA.toNat := by
  rw [← s.length_unitsA, h, u.length_unitsA]

theorem Variant.bit_inj {v w : Variant} : v.bit = w.bit ↔ v = w := by
  cases v <;> cases w <;> decide

/-! ENCODEB (R122). -/

/-- CONVERT's rule returns the re-sliced sequence in OUT_A (R90). -/
theorem convertReply_ok {pad : Bool} {f t : BitVec 4} {input : List Byte} {p : Reply}
    (h : convertReply pad f t input = .ok p) : convert input f.toNat t.toNat pad = .ok p.outA := by
  unfold convertReply at h
  split at h
  · cases h
  · next out hout => cases h; exact hout

/-- Where the bytes regroup, ENCODEB's rule is ENCODE's on the groups (R122). -/
theorem encodebReply_of_convert {bytes groups : List Byte} (var : Variant) (hrp : List Byte)
    (h : convert bytes 8 5 true = .ok groups) : encodebReply var hrp bytes = encodeReply var hrp groups := by
  simp only [encodebReply, h]

/-- ENCODEB ends as ENCODE does on the human-readable part and the groups that CONVERT gives for the bytes (R60). -/
theorem reply_encodeb_eq_encode (var : Variant) {s c e : State} {p : Reply}
    (hsA : s.lenA.toNat ≤ Config.cap) (hsB : s.lenB.toNat ≤ Config.cap) (heB : e.lenB.toNat ≤ Config.cap)
    (hc : c.unitsA = s.unitsB) (hp : reply (.convert true 8 5) c = .ok p)
    (heA : e.unitsA = s.unitsA) (heu : e.unitsB = p.outA) :
    reply (.encodeb var) s = reply (.encode var) e := by
  have hgroups : convert s.unitsB 8 5 true = .ok e.unitsB := by
    rw [← hc, heu]
    exact convertReply_ok (reply_ok hp).2
  have heA' : e.lenA.toNat ≤ Config.cap := (State.lenA_eq_of_unitsA_eq heA).trans_le hsA
  calc reply (.encodeb var) s
      = encodebReply var s.unitsA s.unitsB := reply_legal (.encodeb var) s rfl ⟨fun _ => hsA, fun _ => hsB⟩
    _ = encodeReply var s.unitsA e.unitsB := encodebReply_of_convert var _ hgroups
    _ = encodeReply var e.unitsA e.unitsB := by rw [heA]
    _ = reply (.encode var) e := (reply_legal (.encode var) e rfl ⟨fun _ => heA', fun _ => heB⟩).symm

/-! DECODEB (R132). -/

theorem reply_decode_legal {d : State} (h : d.lenA.toNat ≤ Config.cap) :
    reply .decode d = decodeReply d.unitsA := reply_legal _ d rfl ⟨fun _ => h, nofun⟩

theorem reply_decodeb_legal (var : Variant) {s : State} (hA : s.lenA.toNat ≤ Config.cap)
    (hB : s.lenB.toNat ≤ Config.cap) : reply (.decodeb var) s = decodebReply var s.unitsA s.unitsB :=
  reply_legal _ s rfl ⟨fun _ => hA, fun _ => hB⟩

/-- DECODE's rule fails exactly as R131 does. -/
theorem decodeReply_error {str : List Byte} {e : Raise} (h : decodeReply str = .error e) :
    decodeString str = .error e := by
  unfold decodeReply at h
  split at h
  · next hs => cases h; exact hs
  · cases h

/-- DECODE's rule returns what R131 decoded. -/
theorem decodeReply_ok {str : List Byte} {p : Reply} (h : decodeReply str = .ok p) :
    ∃ d, decodeString str = .ok d ∧ p = { var := d.var, outA := d.hrp, outB := d.payload } := by
  unfold decodeReply at h
  split at h
  · cases h
  · next d hd => cases h; exact ⟨d, hd, rfl⟩

/-- DECODEB fails as DECODE does on the same string, an illegal LEN_A among the reasons (R60, R132). -/
theorem reply_decodeb_of_decode_error (var : Variant) {s d : State} {e : Raise}
    (hB : s.lenB.toNat ≤ Config.cap) (hA : d.unitsA = s.unitsA) (he : reply .decode d = .error e) :
    reply (.decodeb var) s = .error e := by
  have hlen := State.lenA_eq_of_unitsA_eq hA
  by_cases hl : s.lenA.toNat ≤ Config.cap
  · rw [reply_decode_legal (hlen.trans_le hl), hA] at he
    simp only [reply_decodeb_legal var hl hB, decodebReply, decodeReply_error he]
  · rw [reply_illegal _ _ fun h => hl (hlen.symm.trans_le (h.2.1 rfl))] at he
    rw [← he]
    exact reply_illegal _ _ fun h => hl (h.2.1 rfl)

/-- Where DECODE returns, DECODEB ends with the expectation test and the conversion of what DECODE
decoded (R132 steps 9 and 10). -/
theorem reply_decodeb_of_decode_ok (var : Variant) {s d : State} {p : Reply}
    (hB : s.lenB.toNat ≤ Config.cap) (hA : d.unitsA = s.unitsA) (hp : reply .decode d = .ok p) :
    reply (.decodeb var) s = expectBytes var s.unitsB ⟨p.var, p.outA, p.outB⟩ := by
  obtain ⟨⟨hlA, _⟩, hrule⟩ := reply_ok hp
  obtain ⟨x, hx, rfl⟩ := decodeReply_ok hrule
  have hl : s.lenA.toNat ≤ Config.cap := (State.lenA_eq_of_unitsA_eq hA).symm.trans_le (hlA rfl)
  rw [hA] at hx
  simp only [reply_decodeb_legal var hl hB, decodebReply, hx]

/-- A payload that DECODE returns fits an input buffer (R131 step 1, R6). -/
theorem decode_payload_le_cap {d : State} {p : Reply} (hp : reply .decode d = .ok p) :
    p.outB.length ≤ Config.cap := by
  obtain ⟨_, _, h90, hrp, data, _, _, hlen, _, hpay⟩ := rule_ok .decode d p (reply_ok hp).2
  have := cap_ge
  omega

/-- A variant or human-readable part other than the expected one (R132 step 9). -/
theorem expectBytes_mismatch {var : Variant} {expected : List Byte} {x : Decoded}
    (h : ¬ (x.var = var ∧ x.hrp = expected)) :
    expectBytes var expected x = .error ⟨.variantOrPrefixMismatch, 0⟩ :=
  if_pos (not_and_or.mp h)

/-- With the expected variant and human-readable part, CONVERT 5 to 8 without padding on the payload decides: its
error, or its bytes beside the variant (R132 step 10). -/
theorem expectBytes_match (x : Decoded) : expectBytes x.var x.hrp x =
    (convertReply false 5 8 x.payload).map fun r => { r with var := x.var } := by
  have hwidths : (5 : BitVec 4).toNat = 5 ∧ (8 : BitVec 4).toNat = 8 := ⟨rfl, rfl⟩
  simp only [expectBytes, ne_eq, not_true_eq_false, or_self, if_false, convertReply, hwidths]
  cases convert x.payload 5 8 false with
  | error e => rfl
  | ok bytes => rfl

/-- DECODEB that expects the variant and human-readable part DECODE finds ends as CONVERT does on DECODE's payload,
with the variant added (R60). -/
theorem reply_decodeb_eq_convert {s d c : State} {p : Reply} (hB : s.lenB.toNat ≤ Config.cap)
    (hA : d.unitsA = s.unitsA) (hp : reply .decode d = .ok p) (hprefix : p.outA = s.unitsB)
    (hpayload : c.unitsA = p.outB) : reply (.decodeb p.var) s =
      (reply (.convert false 5 8) c).map fun r => { r with var := p.var } := by
  have hlen : c.lenA.toNat ≤ Config.cap := by
    rw [← c.length_unitsA, hpayload]
    exact decode_payload_le_cap hp
  have hconv : reply (.convert false 5 8) c = convertReply false 5 8 c.unitsA :=
    reply_legal _ c rfl ⟨fun _ => hlen, nofun⟩
  rw [reply_decodeb_of_decode_ok p.var hB hA hp, ← hprefix, hconv, hpayload]
  exact expectBytes_match ⟨p.var, p.outA, p.outB⟩

/-- Two operations that end alike but for the variant on success agree in the rest of the response. -/
theorem exec_map_var {i j : Instr} {s c t c' : State} (v : Variant)
    (h : reply i s = (reply j c).map fun r => { r with var := v })
    (hs : exec i s = .next t) (hc : exec j c = .next c') :
    t.status = c'.status ∧ (t.status = 0 → t.varOut = v.bit) ∧ (t.status ≠ 0 → t.varOut = false) ∧
      t.errPos = c'.errPos ∧ t.result = c'.result ∧ t.lenOA = c'.lenOA ∧ t.lenOB = c'.lenOB ∧
      t.outA = c'.outA ∧ t.outB = c'.outB := by
  rw [exec_eq, Host.Outcome.next.injEq] at hs hc
  subst hs hc
  rw [h]
  cases reply j c with
  | error e =>
    have hcode := e.kind.code_ne_zero
    simp [Except.map, State.finish_raise, hcode]
  | ok r => simp [Except.map, State.finish_ok]

/-- Settles O60: the two equations between replies above, read through the responses they leave. -/
theorem macroOperationsEqualTheirExpansions : Obligations.MacroOperationsEqualTheirExpansions := by
  unfold Obligations.MacroOperationsEqualTheirExpansions
  refine ⟨?encodeb, ?decodeb⟩
  case encodeb =>
    intro var s c c' e e' t hsA hc hconv h0 heB heA heu henc hencb hsB
    obtain ⟨p, hp, rfl⟩ := exec_status_zero hconv h0
    have hgroups : e.unitsB = p.outA := Memory.ofUnits_inj _ _ heu
    exact exec_sameResponse (reply_encodeb_eq_encode var hsA hsB heB hc hp heA hgroups) hencb henc
  case decodeb =>
    intro var s d d' c c' t hB hA hdec hdecb
    refine ⟨fun hfail => ?_, fun h0 => ?_⟩
    · obtain ⟨e, he⟩ := exec_status_ne_zero hdec hfail
      have hsame := (reply_decodeb_of_decode_error var hB hA he).trans he.symm
      exact exec_sameResponse hsame hdecb hdec
    · obtain ⟨p, hp, rfl⟩ := exec_status_zero hdec h0
      rw [State.afterOk_varOut, State.afterOk_outA, State.afterOk_outB, Variant.bit_inj]
      refine ⟨fun ⟨hvar, hout⟩ hcu hconv => ?_, fun hmis => ?_⟩
      · subst hvar
        have hprefix : p.outA = s.unitsB := Memory.ofUnits_inj _ _ hout
        have hpayload : c.unitsA = p.outB := Memory.ofUnits_inj _ _ hcu
        exact exec_map_var p.var (reply_decodeb_eq_convert hB hA hp hprefix hpayload) hdecb hconv
      · have hreply := reply_decodeb_of_decode_ok var hB hA hp
        rw [expectBytes_mismatch fun h => hmis ⟨h.1, congrArg Memory.ofUnits h.2⟩] at hreply
        rw [exec_error _ s _ _ hreply, Host.Outcome.next.injEq] at hdecb
        exact hdecb.symm

end Sys2Proof.Machine
end

section
/-!
PROOFS. The charset mappings (R82) and the case fold (R121): the forward mapping looks up a list of 32 codes and the
reverse mapping a list of 128, so their laws are read off these lists entry by entry.
-/

namespace Sys2Proof.Machine

/-- What holds of the codes 0 to k - 1, one by one, holds of every byte below k. -/
theorem byte_of_forall_lt {P : Byte → Prop} {k : Nat} (h : ∀ n < k, P (BitVec.ofNat 8 n)) {c : Byte}
    (hc : c.toNat < k) : P c := by
  simpa using h c.toNat hc

theorem lower_toNat_of_upperCode {c : Byte} (hc : upperCode c) : (lower c).toNat = c.toNat + 32 := by
  obtain ⟨hlo, hhi⟩ := hc
  have h32 : (32 : Byte).toNat = 32 := rfl
  rw [lower, if_pos ⟨hlo, hhi⟩, BitVec.toNat_add, h32]
  omega

theorem lower_of_not_upperCode {c : Byte} (hc : ¬ upperCode c) : lower c = c := if_neg hc

theorem valueOf_of_128_le {c : Byte} (hc : 128 ≤ c.toNat) : valueOf c = 0xFF := if_neg (by omega)

theorem valueOf_symbolOf {v : Byte} (hv : v.toNat ≤ 31) : valueOf (symbolOf v) = v :=
  byte_of_forall_lt (P := fun v => valueOf (symbolOf v) = v) (k := 32) (by decide) (by omega)

theorem valueOf_le_31 {c : Byte} (hc : valueOf c ≠ 0xFF) : (valueOf c).toNat ≤ 31 :=
  valueOf_group [c] (by simpa [inAlphabet] using hc) _ List.mem_cons_self

/-- Codes from 128 on are outside the alphabet; below 128 this is the table of R17 against that of R16. -/
theorem symbolOf_valueOf {c : Byte} (hc : valueOf c ≠ 0xFF) : symbolOf (valueOf c) = lower c := by
  have hlt : c.toNat < 128 := Nat.lt_of_not_le fun h => hc (valueOf_of_128_le h)
  have htable : ∀ n < 128, valueOf (BitVec.ofNat 8 n) ≠ 0xFF →
      symbolOf (valueOf (BitVec.ofNat 8 n)) = lower (BitVec.ofNat 8 n) := by decide
  exact byte_of_forall_lt (P := fun c => valueOf c ≠ 0xFF → symbolOf (valueOf c) = lower c) htable hlt hc

theorem length_filter_valid :
    ((List.range 128).filter (fun n => valueOf (BitVec.ofNat 8 n) ≠ 0xFF)).length = 55 := by decide

theorem length_filter_invalid :
    ((List.range 128).filter (fun n => valueOf (BitVec.ofNat 8 n) = 0xFF)).length = 73 := by decide

/-- A 5-bit value's symbol is the entry of CHARSET at that index. -/
theorem charset_getElem?_of_le {v : Byte} (hv : v.toNat ≤ 31) : charset[v.toNat]? = some (symbolOf v) := by
  have hlen : v.toNat < charset.length := Nat.lt_succ_of_le hv
  rw [symbolOf, Nat.mod_eq_of_lt (Nat.lt_succ_of_le hv), List.getD_eq_getElem _ _ hlen,
    List.getElem?_eq_getElem hlen]

theorem exists_symbolOf_iff_mem_charset (c : Byte) : (∃ v : Byte, v.toNat ≤ 31 ∧ symbolOf v = c) ↔ c ∈ charset := by
  constructor
  · rintro ⟨v, hv, rfl⟩
    exact List.mem_of_getElem? (charset_getElem?_of_le hv)
  · intro hc
    obtain ⟨n, hn, rfl⟩ := List.mem_iff_getElem.mp hc
    have hn32 : n < 32 := hn
    have hv : (BitVec.ofNat 8 n).toNat = n := by rw [BitVec.toNat_ofNat]; omega
    have hv31 : (BitVec.ofNat 8 n).toNat ≤ 31 := by omega
    refine ⟨BitVec.ofNat 8 n, hv31, Option.some.inj ?_⟩
    rw [← charset_getElem?_of_le hv31, hv, List.getElem?_eq_getElem hn]

/-- CHARSET is the nine digits but '1' and the 23 letters but b, i and o, in another order. -/
theorem charset_perm_alphabet :
    charset.Perm ("023456789acdefghjklmnpqrstuvwxyz".toList.map (fun x => BitVec.ofNat 8 x.toNat)) := by decide

/-- Settles O24: the laws of the mappings above, and the alphabet as a reordering of CHARSET. -/
theorem charsetMappingsAreInverse : Obligations.CharsetMappingsAreInverse := by
  unfold Obligations.CharsetMappingsAreInverse
  refine ⟨fun c => ⟨lower_toNat_of_upperCode, lower_of_not_upperCode⟩, fun v => valueOf_symbolOf,
    fun c hc => ⟨valueOf_le_31 hc, symbolOf_valueOf hc⟩, fun c => valueOf_of_128_le, length_filter_valid,
    length_filter_invalid, fun c => ?_⟩
  rw [exists_symbolOf_iff_mem_charset, charset_perm_alphabet.mem_iff]

end Sys2Proof.Machine
end

section
/-!
PROOFS. The checksum engine (R101 to R104) in natural-number arithmetic: `expand` as a list of quotients and
remainders, the polymod's step as shift, insert and conditional XORs, and the checksum as the six base-32 digits of
the polymod XOR the variant's constant.
-/

namespace Sys2Proof.Machine

/-! expand (R101). -/

theorem highBits_eq (c : Byte) : (c &&& 0x7F) >>> 5 = BitVec.ofNat 8 (c.toNat % 128 / 32) := by
  have hmask : (c &&& 0x7F).toNat = c.toNat % 128 := Nat.and_two_pow_sub_one_eq_mod _ 7
  apply BitVec.eq_of_toNat_eq
  rw [BitVec.toNat_ushiftRight, hmask, Nat.shiftRight_eq_div_pow, BitVec.toNat_ofNat]
  omega

theorem lowBits_eq (c : Byte) : c &&& 0x1F = BitVec.ofNat 8 (c.toNat % 32) := by
  have hmask : (c &&& 0x1F).toNat = c.toNat % 32 := Nat.and_two_pow_sub_one_eq_mod _ 5
  rw [← hmask, BitVec.ofNat_toNat, BitVec.setWidth_eq]

theorem expand_eq (p : List Byte) :
    expand p = p.map (fun c => BitVec.ofNat 8 (c.toNat % 128 / 32)) ++
      0 :: p.map (fun c => BitVec.ofNat 8 (c.toNat % 32)) := by
  simp only [expand, highBits_eq, lowBits_eq, List.append_assoc, List.singleton_append]

theorem expand_getElem?_high {p : List Byte} {k : Nat} {c : Byte} (h : p[k]? = some c) :
    (expand p)[k]? = some (BitVec.ofNat 8 (c.toNat % 128 / 32)) := by
  obtain ⟨hk, -⟩ := List.getElem?_eq_some_iff.mp h
  rw [expand_eq, List.getElem?_append_left (by simpa using hk), List.getElem?_map, h, Option.map_some]

theorem expand_getElem?_length (p : List Byte) : (expand p)[p.length]? = some 0 := by
  rw [expand_eq, List.getElem?_append_right (by simp)]
  simp

theorem expand_getElem?_low {p : List Byte} {k : Nat} {c : Byte} (h : p[k]? = some c) :
    (expand p)[p.length + 1 + k]? = some (BitVec.ofNat 8 (c.toNat % 32)) := by
  have hindex : p.length + 1 + k - p.length = k + 1 := by omega
  rw [expand_eq, List.getElem?_append_right (by simp; omega), List.length_map, hindex, List.getElem?_cons_succ,
    List.getElem?_map, h, Option.map_some]

/-- Flipping bit 7 changes no lower bit. -/
theorem toNat_xor_bit7_mod (c : Byte) {k : Nat} (hk : k ≤ 7) : (c ^^^ 0x80).toNat % 2 ^ k = c.toNat % 2 ^ k := by
  have hzero : (0x80 : Byte).toNat % 2 ^ k = 0 := Nat.mod_eq_zero_of_dvd (pow_dvd_pow 2 hk)
  rw [BitVec.toNat_xor, Nat.xor_mod_two_pow, hzero, Nat.xor_zero]

theorem expand_flipBit7 (p : List Byte) : expand (p.map (fun c => c ^^^ 0x80)) = expand p := by
  have hhigh (c : Byte) : (c ^^^ 0x80).toNat % 128 = c.toNat % 128 := toNat_xor_bit7_mod c (k := 7) (by decide)
  have hlow (c : Byte) : (c ^^^ 0x80).toNat % 32 = c.toNat % 32 := toNat_xor_bit7_mod c (k := 5) (by decide)
  simp only [expand_eq, List.map_map, Function.comp_def, hhigh, hlow]

/-- Settles O25: each index range read off `expand_eq`. -/
theorem expandLaysOutThePrefix : Obligations.ExpandLaysOutThePrefix := by
  unfold Obligations.ExpandLaysOutThePrefix
  exact fun p => ⟨length_expand p, fun _ _ => expand_getElem?_high, expand_getElem?_length p,
    fun _ _ => expand_getElem?_low, expand_groups p, expand_flipBit7 p⟩

/-! polymod (R102). -/

theorem polymod_append_singleton (vs : List Byte) (v : Byte) : polymod (vs ++ [v]) = polymodStep (polymod vs) v :=
  List.foldl_concat ..

/-- The value comes in below the shifted accumulator, so OR adds it. -/
theorem toNat_shift_or_value (chk : Poly) {v : Byte} (hv : v.toNat ≤ 31) :
    (((chk &&& 0x1FFFFFF) <<< 5) ||| v.setWidth 30).toNat = chk.toNat % 2 ^ 25 * 32 + v.toNat := by
  have hmask : (chk &&& 0x1FFFFFF).toNat = chk.toNat % 2 ^ 25 := Nat.and_two_pow_sub_one_eq_mod _ 25
  have hlow : chk.toNat % 2 ^ 25 < 2 ^ 25 := Nat.mod_lt _ (by decide)
  have hshift : ((chk &&& 0x1FFFFFF) <<< 5).toNat = 2 ^ 5 * (chk.toNat % 2 ^ 25) := by
    rw [BitVec.toNat_shiftLeft, hmask, Nat.shiftLeft_eq]; omega
  have hvalue : (v.setWidth 30).toNat = v.toNat := by
    rw [BitVec.toNat_setWidth]; omega
  rw [BitVec.toNat_or, hshift, hvalue, ← Nat.two_pow_add_eq_or_of_lt (by omega)]
  omega

theorem toNat_xor_if (b : Bool) (chk g : Poly) :
    (if b then chk ^^^ g else chk).toNat = chk.toNat ^^^ (if b then g.toNat else 0) := by
  cases b
  · simp
  · exact BitVec.toNat_xor chk g

theorem toNat_xorGen (top : BitVec 5) (chk : Poly) :
    (xorGen top 0 gen chk).toNat = chk.toNat
      ^^^ (if top.getLsbD 0 then 0x3b6a57b2 else 0)
      ^^^ (if top.getLsbD 1 then 0x26508e6d else 0)
      ^^^ (if top.getLsbD 2 then 0x1ea119fa else 0)
      ^^^ (if top.getLsbD 3 then 0x3d4233dd else 0)
      ^^^ (if top.getLsbD 4 then 0x2a1462b3 else 0) := by
  simp only [gen, xorGen, toNat_xor_if]
  rfl

theorem getLsbD_top (chk : Poly) {i : Nat} (hi : i < 5) :
    (chk.extractLsb' 25 5).getLsbD i = chk.toNat.testBit (25 + i) := by
  rw [BitVec.getLsbD_extractLsb', decide_eq_true hi, Bool.true_and]
  rfl

/-- Settles O26: the insertion and the five XORs of one step, each in natural numbers; the trace by evaluation. -/
theorem polymodFoldsEachValue : Obligations.PolymodFoldsEachValue := by
  unfold Obligations.PolymodFoldsEachValue
  refine ⟨rfl, fun vs v hv => ?_, by decide⟩
  rw [polymod_append_singleton, polymodStep, toNat_xorGen, toNat_shift_or_value _ hv]
  simp only [getLsbD_top, Nat.reduceLT, Nat.reduceAdd]

/-! createChecksum and verifyChecksum (R103, R104). -/

theorem toNat_constOf (var : Variant) : (constOf var).toNat = if var = .b then 0x2bc830a3 else 1 := by
  cases var <;> rfl

/-- Settles O27: the six groups of `splitGroups_eq`, of the polymod XOR the variant's constant. -/
theorem checksumIsTheSplitPolymod : Obligations.ChecksumIsTheSplitPolymod := by
  unfold Obligations.ChecksumIsTheSplitPolymod
  refine ⟨fun var p vals => ?_, by decide, by decide, by decide, by decide⟩
  rw [createChecksum, splitGroups_eq, BitVec.toNat_xor, toNat_constOf]

theorem polymod_append_createChecksum (var : Variant) (p vals : List Byte) :
    polymod (expand p ++ (vals ++ createChecksum var p vals)) = constOf var := by
  rw [← List.append_assoc]
  exact polymod_checksum (expand p ++ vals) (constOf var)

/-- Settles O28: verification compares the polymod with the two constants, and values followed by their checksum fold
to the variant's constant, because the polymod is linear over GF(2) and the six groups fold back to themselves. -/
theorem createdChecksumVerifies : Obligations.CreatedChecksumVerifies := by
  unfold Obligations.CreatedChecksumVerifies
  refine ⟨fun p vals => ⟨fun ha => ?a, fun hb => ?b, fun ha hb => ?neither⟩, fun var p vals _ => ?created⟩
  case a => exact (verifyChecksum_eq_some p vals .a).mpr ha
  case b => exact (verifyChecksum_eq_some p vals .b).mpr hb
  case neither => exact (verifyChecksum_eq_none p vals).mpr ⟨ha, hb⟩
  case created =>
    rw [verifyChecksum_eq_some, polymod_append_createChecksum]
    exact toNat_constOf var

end Sys2Proof.Machine
end

section
/-!
PROOFS. The bit converter (R91, R92 item 7): on units that fit it re-slices their bit stream, and regrouping bytes by
five with padding and back without gives the bytes, because the padding is fewer than five zero bits.
-/

namespace Sys2Proof.Machine

/-- R91's two loops, closed: on units that fit their width, convert is the re-slicing of their stream. -/
theorem convert_eq_resliced_bitStream {f t : Nat} (pad : Bool) (hf : f ≤ 8) (ht : 1 ≤ t) {input : List Byte}
    (hfit : ∀ v ∈ input, v.toNat < 2 ^ f) : convert input f t pad = resliced f t pad (bitStream f input) := by
  have hloop := convertLoop_eq f t hf ht input hfit 0 [] ht
  have hempty : natOfBits [] = 0 := rfl
  simp only [List.nil_append, List.length_nil, hempty] at hloop
  have hrem := remainder_eq t _ (length_leftoverBits_lt t (bitStream f input) ht)
  simp only [convert, hloop, hrem, resliced]
  cases pad with
  | true =>
    by_cases hrest : leftoverBits t (bitStream f input) = []
    · simp [hrest]
    · simp [hrest, List.length_pos_iff, unitOfBits_eq]
  | false =>
    by_cases hwhole : f ≤ (leftoverBits t (bitStream f input)).length
    · simp [hwhole]
    · simp [hwhole, natOfBits_replicate, natOfBits_eq_zero]

/-- With padding, the units that re-slicing gives hold the whole stream and fewer than one unit of zeros after it
(R92 item 2). -/
theorem resliced_padded (f : Nat) {t : Nat} (ht1 : 1 ≤ t) (ht8 : t ≤ 8) (bits : List Bool) :
    ∃ units k, resliced f t true bits = .ok units ∧ k < t ∧ (∀ v ∈ units, v.toNat < 2 ^ t) ∧
      bitStream t units = bits ++ List.replicate k false := by
  have hcut := bitStream_wholeUnits t ht1 ht8 bits
  by_cases hrest : leftoverBits t bits = []
  · rw [hrest, List.append_nil] at hcut
    exact ⟨wholeUnits t bits, 0, by simp [resliced, hrest], ht1, wholeUnits_fit t bits, by simp [hcut]⟩
  · have hlt := length_leftoverBits_lt t bits ht1
    have hpos := List.length_pos_iff.mpr hrest
    obtain ⟨k, hk⟩ : ∃ k, t - (leftoverBits t bits).length = k := ⟨_, rfl⟩
    have hlen : (leftoverBits t bits ++ List.replicate k false).length = t := by
      rw [List.length_append, List.length_replicate]; omega
    have hlast := unitBits_unitOfBits (leftoverBits t bits ++ List.replicate k false) (by omega)
    rw [hlen] at hlast
    refine ⟨wholeUnits t bits ++ [unitOfBits (leftoverBits t bits ++ List.replicate k false)], k,
      by simp [resliced, hrest, hk], by omega, ?_, ?_⟩
    · simp only [List.forall_mem_append, List.forall_mem_singleton]
      exact ⟨wholeUnits_fit t bits, unitOfBits_lt _ t hlen.le⟩
    · calc bitStream t (wholeUnits t bits ++ [unitOfBits (leftoverBits t bits ++ List.replicate k false)])
          = bitStream t (wholeUnits t bits) ++ (leftoverBits t bits ++ List.replicate k false) := by
            rw [bitStream_append]; simp [bitStream, hlast]
        _ = bits ++ List.replicate k false := by rw [← List.append_assoc, hcut]

/-- Without padding, zeros after the stream of units that fit are dropped, where they are less than one unit of the
output and of the input (R91). -/
theorem resliced_drop_zeros {f t k : Nat} (hkf : k < f) (hkt : k < t) (ht8 : t ≤ 8) {units : List Byte}
    (hfit : ∀ v ∈ units, v.toNat < 2 ^ t) :
    resliced f t false (bitStream t units ++ List.replicate k false) = .ok units := by
  obtain ⟨hunits, hleft⟩ := wholeUnits_bitStream t (by omega) ht8 units hfit
  obtain ⟨hwhole, hrest⟩ := wholeUnits_append t (by omega) (bitStream t units) (List.replicate k false)
  have hshort : (List.replicate k false).length < t := by simpa using hkt
  rw [hunits, hleft, List.nil_append, wholeUnits_of_lt t _ hshort, List.append_nil] at hwhole
  rw [hleft, List.nil_append, leftoverBits_of_lt t _ hshort] at hrest
  simp [resliced, hwhole, hrest, hkf]

/-- Bytes regrouped by five with padding: how many groups there are, that each is 0 to 31, and that regrouping them
by eight gives the bytes back (R92 items 2, 4 and 7). -/
theorem convert_bytes_roundTrip (bytes : List Byte) :
    ∃ groups, convert bytes 8 5 true = .ok groups ∧ groups.length = (8 * bytes.length + 4) / 5 ∧
      areGroups groups ∧ convert groups 5 8 false = .ok bytes := by
  have hbytes : ∀ v ∈ bytes, v.toNat < 2 ^ 8 := fun v _ => v.isLt
  obtain ⟨groups, k, hgroups, hk, hfit, hstream⟩ :=
    resliced_padded 8 (t := 5) (by decide) (by decide) (bitStream 8 bytes)
  rw [← convert_eq_resliced_bitStream true le_rfl (by decide) hbytes] at hgroups
  have hlen := convert_length 8 5 true le_rfl (by decide) bytes hbytes groups hgroups
  refine ⟨groups, hgroups, ?_, fun v hv => Nat.le_of_lt_succ (hfit v hv), ?_⟩
  · rw [hlen, if_pos rfl]
    omega
  · rw [convert_eq_resliced_bitStream false (by decide) (by decide) hfit, hstream]
    exact resliced_drop_zeros hk (by omega) le_rfl hbytes

end Sys2Proof.Machine
end

section
/-!
PROOFS. The string decoder: what a string satisfies that it accepts (R133), and that it takes back what the encoder
made (R134).
-/

namespace Sys2Proof.Machine

/-- Settles O57: what R131 accepts (`decodeString_ok`); the bound on the human-readable part is what 90
characters leave beside the separator and six of data. -/
theorem acceptedStringsSatisfyEveryCheck : Obligations.AcceptedStringsSatisfyEveryCheck := by
  unfold Obligations.AcceptedStringsSatisfyEveryCheck
  intro s t ht h0
  obtain ⟨p, hp, rfl⟩ := exec_status_zero ht h0
  obtain ⟨d, hd, rfl⟩ := decodeReply_ok (reply_ok hp).2
  obtain ⟨h8, h90, hclean, hrp, data, hs, hne, h6, ha, hpoly, hhrp, hpay⟩ := decodeString_ok _ d hd
  have hlen : s.unitsA.length = hrp.length + (data.length + 1) := by simp [hs.1]
  have hpos := List.length_pos_iff.mpr hne
  rw [s.length_unitsA] at h8 h90 hlen
  refine ⟨h8, h90, hclean, d.var, hrp, data, hs, hpos, by omega, h6, ha, valueOf_group data ha, hpoly, ?_⟩
  rw [hhrp, hpay]
  rfl

/-! The characters of an encoded string (R123). -/

theorem not_upperCode_lower (c : Byte) : ¬ upperCode (lower c) := by
  by_cases hc : upperCode c
  · have := lower_toNat_of_upperCode hc
    simp only [upperCode] at hc ⊢
    omega
  · rwa [lower_of_not_upperCode hc]

theorem lower_lower (c : Byte) : lower (lower c) = lower c := lower_of_not_upperCode (not_upperCode_lower c)

theorem map_lower_map_lower (str : List Byte) : (str.map lower).map lower = str.map lower := by
  simp only [List.map_map, Function.comp_def, lower_lower]

theorem lower_printable {c : Byte} (hc : 33 ≤ c.toNat ∧ c.toNat ≤ 126) :
    33 ≤ (lower c).toNat ∧ (lower c).toNat ≤ 126 := by
  by_cases hu : upperCode c
  · have := lower_toNat_of_upperCode hu
    simp only [upperCode] at hu
    omega
  · rwa [lower_of_not_upperCode hu]

/-- The alphabet of R16 is printable, has no capital letter and leaves out '1'. -/
theorem charset_codes : ∀ c ∈ charset, (33 ≤ c.toNat ∧ c.toNat ≤ 126) ∧ ¬ upperCode c ∧ c ≠ 0x31 := by
  decide

theorem mem_charset_of_mem_symbols {values : List Byte} (hv : areGroups values) {c : Byte}
    (hc : c ∈ values.map symbolOf) : c ∈ charset := by
  obtain ⟨v, hmem, rfl⟩ := List.mem_map.mp hc
  exact (exists_symbolOf_iff_mem_charset _).mp ⟨v, hv v hmem, rfl⟩

theorem map_valueOf_map_symbolOf {values : List Byte} (hv : areGroups values) :
    (values.map symbolOf).map valueOf = values := by
  rw [List.map_map]
  exact (List.map_congr_left fun v hmem => valueOf_symbolOf (hv v hmem)).trans (List.map_id values)

theorem inAlphabet_symbols {values : List Byte} (hv : areGroups values) : inAlphabet (values.map symbolOf) := by
  intro c hc
  obtain ⟨v, hmem, rfl⟩ := List.mem_map.mp hc
  have hv31 := hv v hmem
  rw [valueOf_symbolOf hv31]
  rintro rfl
  exact absurd hv31 (by decide)

theorem areGroups_append_createChecksum (var : Variant) (hrp : List Byte) {values : List Byte}
    (hv : areGroups values) : areGroups (values ++ createChecksum var hrp values) :=
  List.forall_mem_append.mpr ⟨hv, splitGroups_groups _⟩

/-- The separator the encoder writes is the last '1': no symbol is one. -/
theorem encodedString_splitsAt (var : Variant) (hrp : List Byte) {values : List Byte} (hv : areGroups values) :
    splitsAt (encodedString var hrp values) hrp ((values ++ createChecksum var hrp values).map symbolOf) := by
  refine ⟨by simp [encodedString, separator], fun hmem => ?_⟩
  have hcharset := mem_charset_of_mem_symbols (areGroups_append_createChecksum var hrp hv) hmem
  obtain ⟨-, -, hne⟩ := charset_codes _ hcharset
  exact hne rfl

/-- An encoded string passes the scan of R131 step 2: printable, and without a capital letter. -/
theorem encodedString_clean (var : Variant) {hrp values : List Byte}
    (hprint : ∀ c ∈ hrp, 33 ≤ c.toNat ∧ c.toNat ≤ 126) (hv : areGroups values) :
    cleanChars (encodedString var (hrp.map lower) values) := by
  have hchar : ∀ c ∈ encodedString var (hrp.map lower) values,
      (33 ≤ c.toNat ∧ c.toNat ≤ 126) ∧ ¬ upperCode c := by
    rw [(encodedString_splitsAt var _ hv).1]
    have hsymbol : ∀ c ∈ (values ++ createChecksum var (hrp.map lower) values).map symbolOf,
        (33 ≤ c.toNat ∧ c.toNat ≤ 126) ∧ ¬ upperCode c := fun c hc => by
      obtain ⟨hrange, hlower, -⟩ := charset_codes c
        (mem_charset_of_mem_symbols (areGroups_append_createChecksum var _ hv) hc)
      exact ⟨hrange, hlower⟩
    rw [List.forall_mem_append, List.forall_mem_cons, List.forall_mem_map]
    exact ⟨fun c hc => ⟨lower_printable (hprint c hc), not_upperCode_lower c⟩, by decide, hsymbol⟩
  exact ⟨fun c hc => (hchar c hc).1, fun ⟨_, c, hc, hu⟩ => (hchar c hc).2 hu⟩

/-- R131 takes an encoded string of at most 90 characters apart into what R120 made it of. -/
theorem decodeString_encodedString (var : Variant) {hrp values : List Byte} (hne : hrp ≠ [])
    (hprint : ∀ c ∈ hrp, 33 ≤ c.toNat ∧ c.toNat ≤ 126) (hv : areGroups values)
    (h90 : hrp.length + values.length + 7 ≤ 90) :
    decodeString (encodedString var (hrp.map lower) values) = .ok ⟨var, hrp.map lower, values⟩ := by
  have hlen := length_encodedString var (hrp.map lower) values
  have hcheck := length_createChecksum var (hrp.map lower) values
  have hpos := List.length_pos_iff.mpr hne
  have hgroups := areGroups_append_createChecksum var (hrp.map lower) hv
  have hverify : verifyChecksum (hrp.map lower) (values ++ createChecksum var (hrp.map lower) values) = some var :=
    createdChecksumVerifies.2 var _ values hv
  rw [List.length_map] at hlen
  rw [decodeString_alphabet _ _ _ (by omega) (by omega) (encodedString_clean var hprint hv)
    (encodedString_splitsAt var _ hv) (by simpa using hne) (by simp [hcheck]) (inAlphabet_symbols hgroups),
    map_valueOf_map_symbolOf hgroups]
  simp only [decodeParts, map_lower_map_lower, hverify]
  simp [hcheck]

/-! What the operations complete with. -/

theorem encodeReply_eq_ok (var : Variant) {hrp values : List Byte} (h1 : 1 ≤ hrp.length) (h83 : hrp.length ≤ 83)
    (hv : areGroups values) :
    encodeReply var hrp values = .ok { outA := encodedString var (hrp.map lower) values } := by
  rw [encodeReply, if_neg (by omega), if_neg (by omega), checkGroups_groups _ _ hv]

/-- DECODE completes with what R131 decodes: a string it accepts has a legal length (R6). -/
theorem exec_decode_of_decodeString {u : State} {d : Decoded} (hd : decodeString u.unitsA = .ok d) :
    exec .decode u = .next (u.afterOk d.var 0 d.hrp d.payload) := by
  have hlen : u.lenA.toNat ≤ Config.cap := by
    obtain ⟨_, h90, _⟩ := decodeString_ok _ d hd
    rw [u.length_unitsA] at h90
    have hcap := cap_ge
    omega
  refine exec_ok .decode u { var := d.var, outA := d.hrp, outB := d.payload } ?_
  simp only [reply_decode_legal hlen, decodeReply, hd]

/-- DECODEB that expects the variant and the human-readable part R131 decodes completes with the payload's bytes. -/
theorem exec_decodeb_of_decodeString {u : State} {d : Decoded} {bytes : List Byte}
    (hd : decodeString u.unitsA = .ok d) (hprefix : u.unitsB = d.hrp)
    (hbytes : convert d.payload 5 8 false = .ok bytes) :
    exec (.decodeb d.var) u = .next (u.afterOk d.var 0 bytes []) := by
  obtain ⟨hlenA, hlenB⟩ : u.lenA.toNat ≤ Config.cap ∧ u.lenB.toNat ≤ Config.cap := by
    obtain ⟨_, h90, _, hrp, data, hs, _, _, _, _, hhrp, _⟩ := decodeString_ok _ d hd
    have hA := u.length_unitsA
    have hB := u.length_unitsB
    have hsum : u.unitsA.length = hrp.length + (data.length + 1) := by simp [hs.1]
    rw [hprefix, hhrp, List.length_map] at hB
    have hcap := cap_ge
    constructor <;> omega
  refine exec_ok (.decodeb d.var) u { var := d.var, outA := bytes } ?_
  simp [reply_decodeb_legal d.var hlenA hlenB, decodebReply, hd, hprefix, expectBytes, hbytes]

/-- Settles O58: the encoder's string is taken apart by `decodeString_encodedString`; for bytes, the groups in it are
those of `convert_bytes_roundTrip`. -/
theorem encodingThenDecodingRoundTrips : Obligations.EncodingThenDecodingRoundTrips := by
  unfold Obligations.EncodingThenDecodingRoundTrips
  refine ⟨?values, ?bytes⟩
  case values =>
    intro var s h1 h83 hprint hv h90
    have hA := s.length_unitsA
    have hB := s.length_unitsB
    have hcap := cap_ge
    have hreply : reply (.encode var) s = .ok { outA := encodedString var (s.unitsA.map lower) s.unitsB } := by
      rw [reply_legal _ s rfl ⟨fun _ => by omega, fun _ => by omega⟩]
      exact encodeReply_eq_ok var (by omega) (by omega) hv
    refine ⟨encodedString var (s.unitsA.map lower) s.unitsB, exec_ok _ s _ hreply, fun u hu => ?_⟩
    have hd := decodeString_encodedString var (List.length_pos_iff.mp (by omega)) hprint hv (by omega)
    rw [← hu] at hd
    exact exec_decode_of_decodeString hd
  case bytes =>
    intro var s h1 h83 hprint h90
    have hA := s.length_unitsA
    have hB := s.length_unitsB
    have hcap := cap_ge
    obtain ⟨groups, hgroups, hlen, hv, hback⟩ := convert_bytes_roundTrip s.unitsB
    have hreply : reply (.encodeb var) s = .ok { outA := encodedString var (s.unitsA.map lower) groups } := by
      rw [reply_legal _ s rfl ⟨fun _ => by omega, fun _ => by omega⟩]
      exact (encodebReply_of_convert var _ hgroups).trans (encodeReply_eq_ok var (by omega) (by omega) hv)
    refine ⟨encodedString var (s.unitsA.map lower) groups, exec_ok _ s _ hreply, fun u hu hprefix => ?_⟩
    have hd := decodeString_encodedString var (List.length_pos_iff.mp (by omega)) hprint hv (by omega)
    rw [← hu] at hd
    exact exec_decodeb_of_decodeString hd hprefix hback

end Sys2Proof.Machine
end

section
/-!
PROOFS. The error kinds (R151 to R166). First what STATUS tells of the rule that raised it; then each kind's cause:
the encoder's, the decoder's check by check, DECODEB's two last steps, the converter's and the domain test's.
-/

namespace Sys2Proof.Machine

/-! What STATUS tells (R150, R174). -/

theorem ErrorKind.code_inj {k l : ErrorKind} : k.code = l.code ↔ k = l := by
  cases k <;> cases l <;> decide

/-- An operation ends with an error of its rule, or with IllegalCommand (R56, R150). -/
theorem reply_error {i : Instr} {s : State} {e : Raise} (h : reply i s = .error e) :
    e = illegalCommand ∨ rule i s = .error e := by
  unfold reply at h
  split at h
  · exact .inr h
  · cases h; exact .inl rfl

/-- A STATUS other than IllegalCommand's was raised by the operation's rule, and is in the operation's row of R174. -/
theorem exec_status_code {i : Instr} {s t : State} {k : ErrorKind} (h : exec i s = .next t) (ht : t.status = k.code)
    (hk : k ≠ .illegalCommand) : k ∈ ruleKinds i ∧ ∃ pos, rule i s = .error ⟨k, pos⟩ := by
  rcases exec_cases i s t h with ⟨⟨kind, pos⟩, he, rfl⟩ | ⟨p, _, rfl⟩
  · rw [State.afterError_status, ErrorKind.code_inj] at ht
    subst ht
    rcases reply_error he with hill | hrule
    · cases hill
      exact absurd rfl hk
    · obtain ⟨hmem, _⟩ := rule_error i s _ hrule
      exact ⟨hmem, pos, hrule⟩
  · rw [State.afterOk_status] at ht
    exact absurd ht.symm k.code_ne_zero

/-! The encoder (R120, R122): both operations fail alike on the human-readable part, before any value is looked at. -/

/-- What ENCODE's rule raises for every sequence of values, ENCODE and ENCODEB raise. -/
theorem exec_encodes_error (var : Variant) {s : State} {k : ErrorKind} {pos : Nat} (hA : s.lenA.toNat ≤ Config.cap)
    (hB : s.lenB.toNat ≤ Config.cap) (h : ∀ values, encodeReply var s.unitsA values = .error ⟨k, pos⟩) :
    exec (.encode var) s = .next (s.afterError k.code pos) ∧
      exec (.encodeb var) s = .next (s.afterError k.code pos) := by
  obtain ⟨groups, hgroups, _⟩ := convert_bytes_roundTrip s.unitsB
  refine ⟨exec_error _ s k pos ?_, exec_error _ s k pos ?_⟩
  · rw [reply_legal _ s rfl ⟨fun _ => hA, fun _ => hB⟩]
    exact h s.unitsB
  · rw [reply_legal _ s rfl ⟨fun _ => hA, fun _ => hB⟩]
    exact (encodebReply_of_convert var _ hgroups).trans (h groups)

theorem encodeReply_empty (var : Variant) {hrp : List Byte} (values : List Byte) (h : hrp.length = 0) :
    encodeReply var hrp values = .error ⟨.prefixEmpty, 0⟩ := if_pos h

theorem encodeReply_long (var : Variant) {hrp : List Byte} (values : List Byte) (h : 83 < hrp.length) :
    encodeReply var hrp values = .error ⟨.prefixTooLong, 0⟩ := by
  rw [encodeReply, if_neg (by omega), if_pos h]

/-! The decoder (R131): what each check raises, in the order of the checks. -/

/-- DECODEB's rule fails exactly as R131 does, where R131 fails. -/
theorem decodebReply_error (var : Variant) {str : List Byte} (expected : List Byte) {e : Raise}
    (h : decodeString str = .error e) : decodebReply var str expected = .error e := by
  simp only [decodebReply, h]

/-- What R131 raises, DECODE and DECODEB raise. -/
theorem exec_decodes_error {i : Instr} {s : State} {k : ErrorKind} {pos : Nat} (hi : decodesString i s)
    (hA : s.unitsA.length ≤ Config.cap) (h : decodeString s.unitsA = .error ⟨k, pos⟩) :
    exec i s = .next (s.afterError k.code pos) := by
  rw [s.length_unitsA] at hA
  refine exec_error i s k pos ?_
  rcases hi with rfl | ⟨var, rfl, hB⟩
  · simp only [reply_decode_legal hA, decodeReply, h]
  · rw [reply_decodeb_legal var hA hB]
    exact decodebReply_error var _ h

/-- A LEN_A above CAP is illegal for both (R56 item 5). -/
theorem exec_decodes_illegal {i : Instr} {s : State} (hi : decodesString i s) (hA : Config.cap < s.lenA.toNat) :
    exec i s = .next (s.afterError ErrorKind.illegalCommand.code 0) := by
  refine exec_error i s .illegalCommand 0 (reply_illegal i s fun ⟨_, hlenA, _⟩ => ?_)
  have hreads : readsA i = true := by
    rcases hi with rfl | ⟨var, rfl, _⟩ <;> rfl
  exact absurd (hlenA hreads) (Nat.not_le.mpr hA)

theorem decodeString_short {str : List Byte} (h : str.length < 8) :
    decodeString str = .error ⟨.stringTooShort, 0⟩ := if_pos h

theorem decodeString_long {str : List Byte} (h : 90 < str.length) :
    decodeString str = .error ⟨.stringTooLong, 0⟩ := by
  rw [decodeString, if_neg (by omega), if_pos h]

section
variable {str : List Byte} (h8 : 8 ≤ str.length) (h90 : str.length ≤ 90)
include h8 h90

theorem decodeString_scan {e : Raise} (h : scanChars 0 false false str = some e) : decodeString str = .error e := by
  rw [decodeString, if_neg (by omega), if_neg (by omega), h]

theorem decodeString_noSeparator (hclean : cleanChars str) (h : (0x31 : Byte) ∉ str) :
    decodeString str = .error ⟨.missingSeparator, 0⟩ := by
  rw [decodeString, if_neg (by omega), if_neg (by omega), (scanChars_clean str 0).mpr hclean,
    lastSeparator_none str 0 none h]

theorem decodeString_emptyPrefix {data : List Byte} (hclean : cleanChars str) (hs : splitsAt str [] data) :
    decodeString str = .error ⟨.prefixEmpty, 0⟩ := by
  rw [decodeString_split str [] data h8 h90 hclean hs, if_pos rfl]

variable {hrp : List Byte} (hne : hrp ≠ [])
include hne

theorem decodeString_shortData {data : List Byte} (hclean : cleanChars str) (hs : splitsAt str hrp data)
    (h6 : data.length < 6) : decodeString str = .error ⟨.dataPartTooShort, 0⟩ := by
  rw [decodeString_split str hrp data h8 h90 hclean hs, if_neg hne, hs.1, decodeAt_split, if_pos h6]

theorem decodeString_unknown {before after : List Byte} {c : Byte} (hclean : cleanChars str)
    (hs : splitsAt str hrp (before ++ c :: after)) (h6 : 6 ≤ (before ++ c :: after).length)
    (ha : inAlphabet before) (hc : valueOf c = 0xFF) :
    decodeString str = .error ⟨.unknownCharacter, hrp.length + 1 + before.length⟩ := by
  rw [decodeString_split str hrp _ h8 h90 hclean hs, if_neg hne, hs.1, decodeAt_split, if_neg (by omega),
    dataValues_unknown before after c _ ha hc]

variable {data : List Byte} (hclean : cleanChars str) (hs : splitsAt str hrp data) (h6 : 6 ≤ data.length)
  (ha : inAlphabet data)
include hclean hs h6 ha

theorem decodeString_badChecksum (h1 : (stringPolymod hrp data).toNat ≠ 1)
    (h2 : (stringPolymod hrp data).toNat ≠ 0x2BC830A3) : decodeString str = .error ⟨.checksumInvalid, 0⟩ := by
  have hverify := (verifyChecksum_eq_none (hrp.map lower) (data.map valueOf)).mpr ⟨h1, h2⟩
  rw [decodeString_alphabet str hrp data h8 h90 hclean hs hne h6 ha, decodeParts, hverify]

/-- What R131 delivers of a string that passes every check. -/
theorem decodeString_eq_ok {var : Variant}
    (hpoly : (stringPolymod hrp data).toNat = (if var = .b then 0x2BC830A3 else 1)) :
    decodeString str = .ok ⟨var, hrp.map lower, (data.map valueOf).take (data.length - 6)⟩ := by
  have hverify := (verifyChecksum_eq_some (hrp.map lower) (data.map valueOf) var).mpr hpoly
  rw [decodeString_alphabet str hrp data h8 h90 hclean hs hne h6 ha, decodeParts, hverify, List.length_map]

end

/-- DECODEB fails with what the expectation test or the conversion raises on the decoded parts (R132 steps 9 and
10). -/
theorem exec_decodeb_error (var : Variant) {s : State} {d : Decoded} {k : ErrorKind} {pos : Nat}
    (hA : s.unitsA.length ≤ Config.cap) (hB : s.lenB.toNat ≤ Config.cap) (hd : decodeString s.unitsA = .ok d)
    (h : expectBytes var s.unitsB d = .error ⟨k, pos⟩) :
    exec (.decodeb var) s = .next (s.afterError k.code pos) := by
  rw [s.length_unitsA] at hA
  refine exec_error _ s k pos ?_
  simp only [reply_decodeb_legal var hA hB, decodebReply, hd, h]

theorem expectBytes_convert_error {d : Decoded} {e : Raise} (h : convert d.payload 5 8 false = .error e) :
    expectBytes d.var d.hrp d = .error e := by
  simp [expectBytes, h]

/-! The converter (R91). -/

/-- The first unit that does not fit its width ends the conversion, whatever the output width and the padding. -/
theorem convert_wide {f : Nat} (t : Nat) (pad : Bool) {before : List Byte} (after : List Byte) {v : Byte}
    (hfit : ∀ u ∈ before, u.toNat < 2 ^ f) (hv : 2 ^ f ≤ v.toNat) :
    convert (before ++ v :: after) f t pad = .error ⟨.bitValueExceedsWidth, before.length⟩ := by
  rw [convert, convertLoop_wide f t before after v hfit hv, Nat.zero_add]

/-- Without padding, a whole input unit or a one bit among the bits left over is an error. -/
theorem convert_badPadding {f t : Nat} (hf : f ≤ 8) (ht : 1 ≤ t) {input : List Byte}
    (hfit : ∀ v ∈ input, v.toNat < 2 ^ f)
    (h : f ≤ (leftoverBits t (bitStream f input)).length ∨ true ∈ leftoverBits t (bitStream f input)) :
    convert input f t false = .error ⟨.invalidPadding, 0⟩ := by
  rw [convert_eq_resliced_bitStream false hf ht hfit, resliced, if_neg Bool.false_ne_true, if_pos h]

/-- CONVERT's rule fails exactly as convert does (R90). -/
theorem convertReply_error {pad : Bool} {f t : BitVec 4} {input : List Byte} {e : Raise}
    (h : convertReply pad f t input = .error e) : convert input f.toNat t.toNat pad = .error e := by
  unfold convertReply at h
  split at h
  · next hconv => cases h; exact hconv
  · cases h

/-- CONVERT with legal widths fails as convert does (R90). -/
theorem exec_convert_error (pad : Bool) {f t : BitVec 4} {s : State} {k : ErrorKind} {pos : Nat} (hf1 : 1 ≤ f.toNat)
    (hf8 : f.toNat ≤ 8) (ht1 : 1 ≤ t.toNat) (ht8 : t.toNat ≤ 8) (hA : s.lenA.toNat ≤ Config.cap)
    (h : convert s.unitsA f.toNat t.toNat pad = .error ⟨k, pos⟩) :
    exec (.convert pad f t) s = .next (s.afterError k.code pos) := by
  refine exec_error _ s k pos ?_
  have hw : (Instr.convert pad f t).wellFormed = true := by
    simp [Instr.wellFormed, legalWidth, hf1, hf8, ht1, ht8]
  rw [reply_legal (.convert pad f t) s hw ⟨fun _ => hA, nofun⟩]
  simp only [rule, convertReply, h]

/-! The domain test (R166). -/

/-- An operation on legal lengths whose rule is the domain test before something else stops at the first unit above
31. -/
theorem exec_outOfDomain {i : Instr} {s : State} (hw : i.wellFormed = true) (hl : lengthsLegal i s)
    {units before after : List Byte} {v : Byte} {r : Except Raise Reply} (hrule : rule i s = checkGroups units r)
    (hunits : units = before ++ v :: after) (hbefore : areGroups before) (hv : 31 < v.toNat) :
    exec i s = .next (s.afterError ErrorKind.operandOutOfDomain.code before.length) := by
  refine exec_error i s _ _ ?_
  rw [reply_legal i s hw hl, hrule, hunits, checkGroups_first before after v r hbefore hv]

end Sys2Proof.Machine
end

section
/-!
PROOFS. What each error kind is raised for (60_exceptions.md; R152 to R164, R166): the causes above, in the
states the statements speak of.
-/

namespace Sys2Proof.Machine

theorem le_cap_of_le_90 {n : Nat} (h : n ≤ 90) : n ≤ Config.cap :=
  h.trans (Nat.le_trans (by decide) cap_ge)

/-- Settles O43: `encodeReply_empty` and `decodeString_emptyPrefix`. -/
theorem prefixEmptyIsRaised : Obligations.PrefixEmptyIsRaised := by
  unfold Obligations.PrefixEmptyIsRaised
  refine ⟨fun var s h0 hB => ?_, fun i s data hi h8 h90 hclean hs => ?_⟩
  · have hA : s.lenA.toNat ≤ Config.cap := le_cap_of_le_90 (by omega)
    rw [← s.length_unitsA] at h0
    exact exec_encodes_error var hA hB fun values => encodeReply_empty var values h0
  · rw [← s.length_unitsA] at h8 h90
    exact exec_decodes_error hi (le_cap_of_le_90 h90) (decodeString_emptyPrefix h8 h90 hclean hs)

/-- Settles O44: `encodeReply_long`, and R174's rows of DECODE and DECODEB. -/
theorem prefixTooLongIsRaised : Obligations.PrefixTooLongIsRaised := by
  unfold Obligations.PrefixTooLongIsRaised
  refine ⟨fun var s h83 hA hB => ?_, fun s t var hexec hstatus => ?_⟩
  · rw [← s.length_unitsA] at h83
    exact exec_encodes_error var hA hB fun values => encodeReply_long var values h83
  · have hcode : t.status = ErrorKind.prefixTooLong.code := hstatus
    rcases hexec with hexec | hexec
    · obtain ⟨hmem, _⟩ := exec_status_code hexec hcode (by decide)
      exact absurd hmem (by simp [ruleKinds])
    · obtain ⟨hmem, _⟩ := exec_status_code hexec hcode (by decide)
      exact absurd hmem (by simp [ruleKinds])

/-- Settles O45: `decodeString_short`, for DECODE and DECODEB alike (`exec_decodes_error`). -/
theorem stringTooShortIsRaised : Obligations.StringTooShortIsRaised := by
  unfold Obligations.StringTooShortIsRaised
  intro i s hi h8
  rw [← s.length_unitsA] at h8
  exact exec_decodes_error hi (le_cap_of_le_90 (by omega)) (decodeString_short h8)

/-- Settles O46: `decodeString_long` up to CAP, `exec_decodes_illegal` above. -/
theorem stringTooLongIsRaised : Obligations.StringTooLongIsRaised := by
  unfold Obligations.StringTooLongIsRaised
  refine fun i s hi => ⟨fun h90 hA => ?_, exec_decodes_illegal hi⟩
  rw [← s.length_unitsA] at h90 hA
  exact exec_decodes_error hi hA (decodeString_long h90)

/-- Settles O47: the scan stops there (`scanChars_code`). -/
theorem invalidCharacterCodeIsRaised : Obligations.InvalidCharacterCodeIsRaised := by
  unfold Obligations.InvalidCharacterCodeIsRaised
  intro i s before after c hi h8 h90 hstr hclean hc
  have hscan := scanChars_code before after c hclean hc
  rw [← hstr] at hscan
  rw [← s.length_unitsA] at h8 h90
  exact exec_decodes_error hi (le_cap_of_le_90 h90) (decodeString_scan h8 h90 hscan)

/-- Settles O48: the scan stops there (`scanChars_case`). -/
theorem mixedCaseIsRaised : Obligations.MixedCaseIsRaised := by
  unfold Obligations.MixedCaseIsRaised
  intro i s before after c hi h8 h90 hstr hclean hc
  have hscan := scanChars_case before after c hclean hc
  rw [← hstr] at hscan
  rw [← s.length_unitsA] at h8 h90
  exact exec_decodes_error hi (le_cap_of_le_90 h90) (decodeString_scan h8 h90 hscan)

/-- Settles O49: `decodeString_noSeparator`. -/
theorem missingSeparatorIsRaised : Obligations.MissingSeparatorIsRaised := by
  unfold Obligations.MissingSeparatorIsRaised
  intro i s hi h8 h90 hclean hno
  rw [← s.length_unitsA] at h8 h90
  exact exec_decodes_error hi (le_cap_of_le_90 h90) (decodeString_noSeparator h8 h90 hclean hno)

/-- Settles O50: `decodeString_shortData`. -/
theorem dataPartTooShortIsRaised : Obligations.DataPartTooShortIsRaised := by
  unfold Obligations.DataPartTooShortIsRaised
  intro i s hrp data hi h8 h90 hclean hs hne h6
  rw [← s.length_unitsA] at h8 h90
  exact exec_decodes_error hi (le_cap_of_le_90 h90) (decodeString_shortData h8 h90 hne hclean hs h6)

/-- Settles O51: `decodeString_unknown`. -/
theorem unknownCharacterIsRaised : Obligations.UnknownCharacterIsRaised := by
  unfold Obligations.UnknownCharacterIsRaised
  intro i s hrp before after c hi h8 h90 hclean hs hne h6 ha hc
  rw [← s.length_unitsA] at h8 h90
  exact exec_decodes_error hi (le_cap_of_le_90 h90) (decodeString_unknown h8 h90 hne hclean hs h6 ha hc)

/-- Settles O52: the string's checksum, and CKVERIFY's after the domain test has passed. -/
theorem checksumInvalidIsRaised : Obligations.ChecksumInvalidIsRaised := by
  unfold Obligations.ChecksumInvalidIsRaised
  refine ⟨fun i s hrp data hi h8 h90 hclean hs hne h6 ha h1 h2 => ?_, fun s hA hB hgroups h1 h2 => ?_⟩
  · rw [← s.length_unitsA] at h8 h90
    exact exec_decodes_error hi (le_cap_of_le_90 h90) (decodeString_badChecksum h8 h90 hne hclean hs h6 ha h1 h2)
  · have hverify := (verifyChecksum_eq_none s.unitsA s.unitsB).mpr ⟨h1, h2⟩
    refine exec_error .ckverify s .checksumInvalid 0 ?_
    rw [reply_legal _ s rfl ⟨fun _ => hA, fun _ => hB⟩]
    simp only [rule, ckverifyReply, checkGroups_groups _ _ hgroups, hverify]

/-- Settles O53: `convert_wide`; conversely only CONVERT's row of R174 has the kind, and a byte that does not fit
FROM_BITS bits leaves FROM_BITS below 8. -/
theorem bitValueExceedsWidthIsRaised : Obligations.BitValueExceedsWidthIsRaised := by
  unfold Obligations.BitValueExceedsWidthIsRaised
  refine ⟨fun pad f t s before after v hf1 hf8 ht1 ht8 hA hunits hfit hv => ?_, fun i s t hexec hstatus => ?_⟩
  · have hconv := convert_wide t.toNat pad after hfit hv
    rw [← hunits] at hconv
    exact exec_convert_error pad hf1 hf8 ht1 ht8 hA hconv
  · have hcode : t.status = ErrorKind.bitValueExceedsWidth.code := hstatus
    obtain ⟨hmem, pos, hrule⟩ := exec_status_code hexec hcode (by decide)
    obtain ⟨pad, f, w, rfl⟩ : ∃ pad f w, i = .convert pad f w := by
      cases i <;> simp [ruleKinds] at hmem ⊢
    refine ⟨pad, f, w, rfl, ?_⟩
    rcases convert_error _ _ _ _ _ (convertReply_error hrule) with ⟨_, v, _, hv⟩ | ⟨he, _⟩
    · exact (Nat.pow_lt_pow_iff_right (by decide)).mp (hv.trans_lt v.isLt)
    · cases he

/-- Settles O54: `convert_badPadding`, for DECODEB on the payload, whose values are 5-bit groups. -/
theorem invalidPaddingIsRaised : Obligations.InvalidPaddingIsRaised := by
  unfold Obligations.InvalidPaddingIsRaised
  refine ⟨fun f t s hf1 hf8 ht1 ht8 hA hfit h => ?_,
    fun var s hrp data h8 h90 hB hclean hs hne h6 ha hpoly hprefix h => ?_⟩
  · exact exec_convert_error false hf1 hf8 ht1 ht8 hA (convert_badPadding hf8 ht1 hfit h)
  · rw [← s.length_unitsA] at h8 h90
    have hd := decodeString_eq_ok h8 h90 hne hclean hs h6 ha hpoly
    have hfit : ∀ v ∈ (data.map valueOf).take (data.length - 6), v.toNat < 2 ^ 5 := fun v hv =>
      Nat.lt_succ_of_le (valueOf_group data ha v (List.mem_of_mem_take hv))
    have hexpect := expectBytes_convert_error (d := ⟨var, hrp.map lower, _⟩)
      (convert_badPadding (by decide) (by decide) hfit h)
    rw [hprefix] at hd hexpect
    exact exec_decodeb_error var (le_cap_of_le_90 h90) hB hd hexpect

/-- Settles O55: the expectation test on the parts of an accepted string. -/
theorem variantOrPrefixMismatchIsRaised : Obligations.VariantOrPrefixMismatchIsRaised := by
  unfold Obligations.VariantOrPrefixMismatchIsRaised
  intro found var s hrp data h8 h90 hB hclean hs hne h6 ha hpoly hmismatch
  rw [← s.length_unitsA] at h8 h90
  have hd := decodeString_eq_ok h8 h90 hne hclean hs h6 ha hpoly
  exact exec_decodeb_error var (le_cap_of_le_90 h90) hB hd (expectBytes_mismatch (not_and_or.mpr hmismatch))

/-- Settles O56: the four operations that test a buffer are `exec_outOfDomain`; CONVERT's row of R174 lacks the
kind. -/
theorem operandOutOfDomainIsRaised : Obligations.OperandOutOfDomainIsRaised := by
  unfold Obligations.OperandOutOfDomainIsRaised
  refine ⟨?csfwd, ?polymod, ?groupsInB, ?convert⟩
  case csfwd =>
    intro arg s harg
    refine exec_error (.csfwd arg) s .operandOutOfDomain 0 ?_
    rw [reply_legal (.csfwd arg) s rfl ⟨nofun, nofun⟩]
    exact if_pos harg
  case polymod =>
    intro s before after v hA hunits hbefore hv
    exact exec_outOfDomain (i := .polymod) rfl ⟨fun _ => hA, nofun⟩ rfl hunits hbefore hv
  case groupsInB =>
    intro var s before after v hA hB hunits hbefore hv
    refine ⟨?_, ?_, fun h1 h83 => ?_⟩
    · exact exec_outOfDomain (i := .ckcreate var) rfl ⟨fun _ => hA, fun _ => hB⟩ rfl hunits hbefore hv
    · exact exec_outOfDomain (i := .ckverify) rfl ⟨fun _ => hA, fun _ => hB⟩ rfl hunits hbefore hv
    · rw [← s.length_unitsA] at h1 h83
      have hrule : rule (.encode var) s = checkGroups s.unitsB _ :=
        (if_neg (by omega)).trans (if_neg (by omega))
      exact exec_outOfDomain rfl ⟨fun _ => hA, fun _ => hB⟩ hrule hunits hbefore hv
  case convert =>
    intro pad f w s t hexec hstatus
    have hcode : t.status = ErrorKind.operandOutOfDomain.code := hstatus
    obtain ⟨hmem, _⟩ := exec_status_code hexec hcode (by decide)
    exact absurd hmem (by simp [ruleKinds])

end Sys2Proof.Machine
end

section
/-!
PROOFS. Illegal commands (R56, R165): the operations' words are exactly the legal ones, and only the lengths of the
buffers an operation reads are left to make it illegal.
-/

namespace Sys2Proof.Machine

open Sys2Proof.Laws

/-! The words that select an operation (R52). -/

/-- The decoder reads every operation back from its word, and R56 calls that word illegal where the operation's widths
are. -/
theorem encodeCommand_decodes (i : Instr) :
    decodeCommand (encodeCommand i) = .ok i ∧ (illegalWord (encodeCommand i) ↔ i.wellFormed = false) := by
  cases i with
  | csfwd arg => revert arg; decide +kernel
  | csinv arg => revert arg; decide +kernel
  | convert pad f t => revert pad f t; decide +kernel
  | expand => decide
  | polymod => decide
  | ckcreate var => cases var <;> decide
  | ckverify => decide
  | encode var => cases var <;> decide
  | decode => decide
  | encodeb var => cases var <;> decide
  | decodeb var => cases var <;> decide

theorem opcodeRow_statement (i : Instr) : OpcodeRow.Statement i := by
  cases i with
  | csfwd arg => exact OpcodeRow.csfwd arg
  | csinv arg => exact OpcodeRow.csinv arg
  | convert pad f t => exact OpcodeRow.convert pad f t
  | expand => exact OpcodeRow.expand
  | polymod => exact OpcodeRow.polymod
  | ckcreate var => exact OpcodeRow.ckcreate var
  | ckverify => exact OpcodeRow.ckverify
  | encode var => exact OpcodeRow.encode var
  | decode => exact OpcodeRow.decode
  | encodeb var => exact OpcodeRow.encodeb var
  | decodeb var => exact OpcodeRow.decodeb var

/-- Outside its row's mask, the operation's word holds the bits of `w`. -/
def takesFields (w : Word) (i : Instr) : Prop :=
  ∀ k < 32, (OpcodeRow.mask i).getLsbD k = false → (encodeCommand i).getLsbD k = w.getLsbD k

/-- A row that selects a word, for an operation with the word's fields, gives the operation of that word: under the
mask both are the row's pattern. -/
theorem encodeCommand_of_selectRow {w : Word} {i j : Instr} (hoff : takesFields w i)
    (h : selectRow w (OpcodeRow.mask i) (OpcodeRow.pattern i) i = .ok j) : encodeCommand j = w := by
  obtain ⟨rfl, hw⟩ := selectRow_ok w _ _ i j h
  refine BitVec.eq_of_getLsbD_eq fun k hk => ?_
  cases hm : (OpcodeRow.mask j).getLsbD k with
  | false => exact hoff k hk hm
  | true => rw [hw k hm, ← opcodeRow_statement j, BitVec.getLsbD_and, hm, Bool.and_true]

theorem takesFields_arg (w : Word) : takesFields w (.csfwd (argField w)) ∧ takesFields w (.csinv (argField w)) := by
  constructor <;>
  · intro k hk
    rw [encodeCommand, getLsbD_packCommand _ _ _ _ _ _ k hk]
    interval_cases k <;> simp [OpcodeRow.mask, argField]

theorem takesFields_convert (w : Word) : takesFields w (.convert (padField w) (fromField w) (toField w)) := by
  intro k hk
  rw [encodeCommand, getLsbD_packCommand _ _ _ _ _ _ k hk]
  interval_cases k <;> simp [OpcodeRow.mask, padField, fromField, toField]

theorem takesFields_variant (w : Word) : takesFields w (.ckcreate (variantField w)) ∧
    takesFields w (.encode (variantField w)) ∧ takesFields w (.encodeb (variantField w)) ∧
    takesFields w (.decodeb (variantField w)) := by
  refine ⟨?_, ?_, ?_, ?_⟩ <;>
  · intro k hk
    rw [encodeCommand, getLsbD_packCommand _ _ _ _ _ _ k hk]
    interval_cases k <;> simp [OpcodeRow.mask, bit_variantField]

theorem takesFields_of_fullMask (w : Word) {i : Instr} (h : OpcodeRow.mask i = 0xFFFFFFFF) : takesFields w i := by
  intro k hk hm
  rw [h, show (0xFFFFFFFF : Word) = BitVec.allOnes 32 from rfl, BitVec.getLsbD_allOnes, decide_eq_false_iff_not] at hm
  exact absurd hk hm

/-- A word that selects an operation is that operation's word. -/
theorem encodeCommand_of_decodeCommand {w : Word} {i : Instr} (h : decodeCommand w = .ok i) :
    encodeCommand i = w := by
  obtain ⟨hcsfwd, hcsinv⟩ := takesFields_arg w
  obtain ⟨hckcreate, hencode, hencodeb, hdecodeb⟩ := takesFields_variant w
  have hexpand : takesFields w .expand := takesFields_of_fullMask w rfl
  have hpolymod : takesFields w .polymod := takesFields_of_fullMask w rfl
  have hckverify : takesFields w .ckverify := takesFields_of_fullMask w rfl
  have hdecode : takesFields w .decode := takesFields_of_fullMask w rfl
  unfold decodeCommand at h
  split at h
  · split at h
    · exact encodeCommand_of_selectRow hcsfwd h
    · exact encodeCommand_of_selectRow hcsinv h
    · exact encodeCommand_of_selectRow (takesFields_convert w) h
    · exact encodeCommand_of_selectRow hexpand h
    · exact encodeCommand_of_selectRow hpolymod h
    · exact encodeCommand_of_selectRow hckcreate h
    · exact encodeCommand_of_selectRow hckverify h
    · exact encodeCommand_of_selectRow hencode h
    · exact encodeCommand_of_selectRow hdecode h
    · exact encodeCommand_of_selectRow hencodeb h
    · exact encodeCommand_of_selectRow hdecodeb h
    · cases h
  · cases h

/-! The words R56 items 1 to 4 call illegal. -/

theorem getLsbD_extract (w : Word) {start len k : Nat} (h1 : start ≤ k) (h2 : k < start + len) :
    (w.extractLsb' start len).getLsbD (k - start) = w.getLsbD k := by
  have hlen : k - start < len := by omega
  have hsum : start + (k - start) = k := by omega
  simp [hlen, hsum]

/-- A word whose reserved bits are 0 is packed of its fields (R51). -/
theorem packCommand_fields {w : Word} (h14 : w.extractLsb' 14 2 = 0) (h24 : w.extractLsb' 24 8 = 0) :
    packCommand (opField w) (w.getLsbD 4) (padField w) (fromField w) (toField w) (argField w) = w := by
  refine BitVec.eq_of_getLsbD_eq fun k hk => ?_
  rw [getLsbD_packCommand _ _ _ _ _ _ k hk]
  split_ifs
  · exact getLsbD_extract w (start := 0) (by omega) (by omega)
  · subst k; rfl
  · subst k; rfl
  · exact getLsbD_extract w (by omega) (by omega)
  · exact getLsbD_extract w (by omega) (by omega)
  · rw [← getLsbD_extract w (start := 14) (len := 2) (by omega) (by omega), h14]
    exact BitVec.getLsbD_zero.symm
  · exact getLsbD_extract w (by omega) (by omega)
  · rw [← getLsbD_extract w (start := 24) (len := 8) (by omega) (by omega), h24]
    exact BitVec.getLsbD_zero.symm

/-- Fields with an opcode of R52 and 0 where its operation uses none make the word of an operation. -/
theorem exists_encodeCommand {op fromBits toBits : BitVec 4} {var pad : Bool} {arg : BitVec 8}
    (hop : ¬ (op.toNat = 0 ∨ 12 ≤ op.toNat)) (hvar : ¬ (var = true ∧ op.toNat ∉ [6, 8, 10, 11]))
    (hconv : ¬ ((pad = true ∨ fromBits.toNat ≠ 0 ∨ toBits.toNat ≠ 0) ∧ op.toNat ≠ 3))
    (harg : ¬ (arg ≠ 0 ∧ op.toNat ∉ [1, 2])) :
    ∃ i, encodeCommand i = packCommand op var pad fromBits toBits arg := by
  have hzero : ∀ x : BitVec 4, x.toNat = 0 ↔ x = 0#4 := by decide
  obtain ⟨v, rfl⟩ : ∃ v : Variant, v.bit = var := by
    cases var with
    | false => exact ⟨.a, rfl⟩
    | true => exact ⟨.b, rfl⟩
  obtain ⟨n, hn⟩ : ∃ n, op.toNat = n := ⟨_, rfl⟩
  obtain rfl : op = BitVec.ofNat 4 n := by rw [← hn, BitVec.ofNat_toNat, BitVec.setWidth_eq]
  rw [hn] at hop hvar hconv harg
  obtain ⟨h1, h11⟩ : 1 ≤ n ∧ n ≤ 11 := by omega
  interval_cases n
  · exact ⟨.csfwd arg, by simp_all [encodeCommand]⟩
  · exact ⟨.csinv arg, by simp_all [encodeCommand]⟩
  · exact ⟨.convert pad fromBits toBits, by simp_all [encodeCommand]⟩
  · exact ⟨.expand, by simp_all [encodeCommand]⟩
  · exact ⟨.polymod, by simp_all [encodeCommand]⟩
  · exact ⟨.ckcreate v, by simp_all [encodeCommand]⟩
  · exact ⟨.ckverify, by simp_all [encodeCommand]⟩
  · exact ⟨.encode v, by simp_all [encodeCommand]⟩
  · exact ⟨.decode, by simp_all [encodeCommand]⟩
  · exact ⟨.encodeb v, by simp_all [encodeCommand]⟩
  · exact ⟨.decodeb v, by simp_all [encodeCommand]⟩

/-- A word that meets none of R56's conditions selects a well-formed operation. -/
theorem exists_decodeCommand_of_legal {w : Word} (h : ¬ illegalWord w) :
    ∃ i, decodeCommand w = .ok i ∧ i.wellFormed = true := by
  obtain ⟨i, rfl⟩ : ∃ i, encodeCommand i = w := by
    have h14 : w.extractLsb' 14 2 = 0 := not_not.mp fun hc => h (.inr (.inl (.inl hc)))
    have h24 : w.extractLsb' 24 8 = 0 := not_not.mp fun hc => h (.inr (.inl (.inr hc)))
    rw [← packCommand_fields h14 h24]
    exact exists_encodeCommand (fun hop => h (.inl hop)) (fun hvar => h (.inr (.inr (.inl hvar))))
      (fun hconv => h (.inr (.inr (.inr (.inl hconv))))) (fun harg => h (.inr (.inr (.inr (.inr (.inl harg))))))
  obtain ⟨hdecode, hillegal⟩ := encodeCommand_decodes i
  rw [hillegal, Bool.not_eq_false] at h
  exact ⟨i, hdecode, h⟩

theorem illegalWord_iff_of_decodeCommand {w : Word} {i : Instr} (h : decodeCommand w = .ok i) :
    illegalWord w ↔ i.wellFormed = false := by
  obtain rfl := encodeCommand_of_decodeCommand h
  exact (encodeCommand_decodes i).2

/-! The lengths R56 item 5 calls illegal. -/

theorem opField_packCommand (op fromBits toBits : BitVec 4) (var pad : Bool) (arg : BitVec 8) :
    (packCommand op var pad fromBits toBits arg).extractLsb' 0 4 = op := by
  refine BitVec.eq_of_getLsbD_eq fun k hk => ?_
  rw [← Nat.sub_zero k, getLsbD_extract _ (Nat.zero_le k) (by omega), getLsbD_packCommand _ _ _ _ _ _ k (by omega),
    if_pos hk, Nat.sub_zero]

/-- R56 item 5 names by their OP the operations that read each input buffer (R43). -/
theorem op_reads_iff (i : Instr) :
    (3 ≤ ((encodeCommand i).extractLsb' 0 4).toNat ∧ ((encodeCommand i).extractLsb' 0 4).toNat ≤ 11 ↔
      readsA i = true) ∧
    (((encodeCommand i).extractLsb' 0 4).toNat ∈ [6, 7, 8, 10, 11] ↔ readsB i = true) := by
  cases i <;> simp [encodeCommand, opField_packCommand, readsA, readsB]

theorem illegalLengths_iff_of_decodeCommand {w : Word} {i : Instr} (h : decodeCommand w = .ok i) (s : State) :
    illegalLengths w s.lenA s.lenB ↔ ¬ lengthsLegal i s := by
  obtain rfl := encodeCommand_of_decodeCommand h
  obtain ⟨hA, hB⟩ := op_reads_iff i
  rw [illegalLengths, ← and_assoc, hA, hB, not_and_or, Classical.not_imp, Classical.not_imp, not_le, not_le]

/-- A decoded command is illegal exactly where its widths or its lengths are (R56). -/
theorem illegal_iff_of_decodeCommand {s : State} {i : Instr} (h : decodeCommand s.cmd = .ok i) :
    illegalWord s.cmd ∨ illegalLengths s.cmd s.lenA s.lenB ↔ ¬ (i.wellFormed = true ∧ lengthsLegal i s) := by
  rw [illegalWord_iff_of_decodeCommand h, illegalLengths_iff_of_decodeCommand h, ← Bool.not_eq_true]
  exact not_and_or.symm

/-! The completion of a command (R165). -/

theorem illegalCommand_not_mem_ruleKinds (i : Instr) : ErrorKind.illegalCommand ∉ ruleKinds i := by
  cases i <;> simp [ruleKinds]

/-- An operation's rule never ends with STATUS 14. -/
theorem status_finish_rule (i : Instr) (s : State) :
    (s.finish (rule i s)).status ≠ ErrorKind.illegalCommand.code := by
  intro h
  rcases s.finish_cases (rule i s) with ⟨e, he, hfinish⟩ | ⟨p, _, hfinish⟩
  · rw [hfinish, State.afterError_status, ErrorKind.code_inj] at h
    obtain ⟨hmem, _⟩ := rule_error i s e he
    exact illegalCommand_not_mem_ruleKinds i (h ▸ hmem)
  · rw [hfinish, State.afterOk_status] at h
    exact ErrorKind.code_ne_zero _ h.symm

/-- Settles O5: a word that is rejected is illegal by R56 items 1 to 3; one that is decoded is illegal by items 4
and 5, or else ends as its rule does, which never raises IllegalCommand. -/
theorem illegalCommandsAreExactlyThese : Obligations.IllegalCommandsAreExactlyThese := by
  unfold Obligations.IllegalCommandsAreExactlyThese
  intro s hbusy hinputs
  have hstep := s.complete_eq
  rw [← s.engineTurn_busy hbusy, ← step_nil s hinputs] at hstep
  cases hdecode : decodeCommand s.cmd with
  | error r =>
    rw [hdecode] at hstep
    refine ⟨fun _ => hstep.trans (congrArg _ (s.finish_error .illegalCommand 0)), fun hlegal => ?_⟩
    obtain ⟨i, hi, _⟩ := exists_decodeCommand_of_legal fun hw => hlegal (.inl hw)
    rw [hdecode] at hi
    cases hi
  | ok i =>
    rw [hdecode] at hstep
    rw [illegal_iff_of_decodeCommand hdecode, hstep]
    refine ⟨fun hillegal => ?_, fun hlegal => ?_⟩
    · dsimp only
      rw [reply_illegal i s hillegal]
      exact congrArg _ (s.finish_error .illegalCommand 0)
    · obtain ⟨hw, hl⟩ := not_not.mp hlegal
      refine ⟨_, rfl, ?_⟩
      dsimp only
      rw [reply_legal i s hw hl]
      exact status_finish_rule i s

end Sys2Proof.Machine
end

section
/-!
PROOFS. The opcode map (30_encoding.md): command words and operations correspond one to one, and the words that
select no legal operation are those R56 items 1 to 4 name.
-/

namespace Sys2Proof.Machine

/-- Settles O1: the decoder reads every operation's word back (`encodeCommand_decodes`), and a word that selects an
operation has that operation's fields and its row's bits everywhere else (`encodeCommand_of_decodeCommand`). -/
theorem encodedCommandsDecodeBack : Obligations.EncodedCommandsDecodeBack := by
  unfold Obligations.EncodedCommandsDecodeBack
  exact ⟨fun i => (encodeCommand_decodes i).1, fun _ _ => encodeCommand_of_decodeCommand⟩

/-- Settles O3: a rejected word meets one of R56's conditions, since a word that meets none selects an operation; a
word that selects one is illegal exactly by its widths. -/
theorem decoderRefusesTheIllegalWords : Obligations.DecoderRefusesTheIllegalWords := by
  unfold Obligations.DecoderRefusesTheIllegalWords
  intro w
  cases hdecode : decodeCommand w with
  | error r =>
    have hillegal : illegalWord w := by
      by_contra hlegal
      obtain ⟨i, hi, _⟩ := exists_decodeCommand_of_legal hlegal
      rw [hdecode] at hi
      cases hi
    exact ⟨fun _ => .inl ⟨r, rfl⟩, fun _ => hillegal⟩
  | ok i =>
    rw [illegalWord_iff_of_decodeCommand hdecode]
    simp

/-- Settles O2: the decoder runs on twelve closed words. -/
theorem wordsOfTheSpecDecode : Obligations.WordsOfTheSpecDecode := by
  unfold Obligations.WordsOfTheSpecDecode
  decide

end Sys2Proof.Machine
end

section
/-!
PROOFS. The step (10_state.md section 3): a busy block runs the operation its command word selects, and it gets to
do so once the host's acts are done.
-/

namespace Sys2Proof.Machine

/-- The engine runs the operation that CMD selects (R58). -/
theorem State.complete_of_decodeCommand {s : State} {i : Instr} (h : decodeCommand s.cmd = .ok i) :
    s.complete = exec i s := by
  rw [State.complete, h]

theorem decodeTableWord_eq_some {nbits w : Nat} {i : Instr} (h : decodeTableWord nbits w = some i) :
    decodeCommand (commandWord nbits w) = .ok i := by
  unfold decodeTableWord at h
  split at h
  · next j hj => cases h; exact hj
  · cases h

/-- A step of a busy block with no act of the host left. -/
theorem step_busy_nil {s : State} {i : Instr} (hbusy : s.busy = true) (hi : decodeCommand s.cmd = .ok i)
    (hinputs : s.inputs = []) : step s = exec i s := by
  rw [step_nil s hinputs, s.engineTurn_busy hbusy, State.complete_of_decodeCommand hi]

/-- A step of a busy block whose host waits. -/
theorem step_busy_wait {s : State} {i : Instr} {rest : List HostEvent} (hbusy : s.busy = true)
    (hi : decodeCommand s.cmd = .ok i) (hinputs : s.inputs = .wait :: rest) :
    step s = exec i { s with inputs := rest } :=
  calc step s = State.engineTurn { s with inputs := rest } := step_wait s rest hinputs
    _ = State.complete { s with inputs := rest } := State.engineTurn_busy _ hbusy
    _ = exec i { s with inputs := rest } := State.complete_of_decodeCommand hi

/-- Settles O4: the engine's turn with and without a wait; a placed word leaves the machine in the one case or in the
other. -/
theorem stepCompletesTheDecodedOperation : Obligations.StepCompletesTheDecodedOperation := by
  unfold Obligations.StepCompletesTheDecodedOperation
  refine ⟨fun s i hbusy hi => ⟨step_busy_nil hbusy hi, fun rest => step_busy_wait hbusy hi⟩,
    fun s nbits w i hw => ?_⟩
  have hi : decodeCommand (s.withFetchWord nbits w).cmd = .ok i := decodeTableWord_eq_some hw
  have hinputs := s.withFetchWord_inputs nbits w
  by_cases hnil : s.inputs = []
  · rw [if_pos hnil] at hinputs
    have hplaced : s.withFetchWord nbits w = { s with cmd := commandWord nbits w, busy := true } := by
      simp [State.withFetchWord, State.withCommand, State.issue, hnil]
    rw [step_busy_nil rfl hi hinputs, hplaced]
  · rw [if_neg hnil] at hinputs
    exact step_busy_wait rfl hi hinputs

/-- The engine's turn ends idle and takes no act of the host (R14). -/
theorem State.engineTurn_next (s : State) :
    ∃ t, s.engineTurn = .next t ∧ t.busy = false ∧ t.inputs = s.inputs := by
  cases hbusy : s.busy with
  | true =>
    rw [s.engineTurn_busy hbusy, s.complete_eq]
    exact ⟨_, rfl, s.finish_busy _, s.finish_inputs _⟩
  | false => exact ⟨s, s.engineTurn_idle hbusy, hbusy, rfl⟩

/-- An act that a host may do at any time and that leaves the block to its work (R182, R185). -/
def HostEvent.harmless (e : HostEvent) : Prop :=
  e = .wait ∨ (∃ r, e = .readReg r) ∨ (∃ r v, e = .writeResponse r v) ∨
    (∃ k, e = .readOutA k ∧ k < 8 * Config.cap + 8) ∨ (∃ k, e = .readOutB k ∧ k < Config.cap)

/-- A step with a harmless act ahead takes that act. -/
theorem step_harmless {s : State} {e : HostEvent} {rest : List HostEvent} (hinputs : s.inputs = e :: rest)
    (he : e.harmless) : ∃ t, step s = .next t ∧ t.inputs = rest := by
  rcases he with rfl | ⟨r, rfl⟩ | ⟨r, v, rfl⟩ | ⟨k, rfl, hk⟩ | ⟨k, rfl, hk⟩
  · obtain ⟨t, ht, -, hrest⟩ := State.engineTurn_next { s with inputs := rest }
    exact ⟨t, (step_wait s rest hinputs).trans ht, hrest⟩
  · obtain ⟨v, d, hread⟩ := State.readReg_cases { s with inputs := rest } r
    exact ⟨_, step_act s _ rest hinputs nofun, by rw [hread]⟩
  · exact ⟨_, step_act s _ rest hinputs nofun, rfl⟩
  · obtain ⟨v, d, hread⟩ := State.readOut_cases { s with inputs := rest } s.outA k
    exact ⟨_, (step_act s _ rest hinputs nofun).trans (if_pos hk), by rw [hread]⟩
  · obtain ⟨v, d, hread⟩ := State.readOut_cases { s with inputs := rest } s.outB k
    exact ⟨_, (step_act s _ rest hinputs nofun).trans (if_pos hk), by rw [hread]⟩

theorem run_succ {M : Host.Core} {s u : M.State} (k : Nat) (h : M.step s = .next u) :
    M.run (k + 1) s = M.run k u := by
  simp only [Host.Core.run, h]

/-- After its harmless acts and one step more a block is idle, whether it was busy or not: a wait may have let the
engine complete before. -/
theorem run_harmless (es : List HostEvent) (hes : ∀ e ∈ es, e.harmless) (s : State) (hinputs : s.inputs = es) :
    ∃ t, Sys2Proof.core.run (es.length + 1) s = .next t ∧ t.busy = false ∧ t.inputs = [] := by
  induction es generalizing s with
  | nil =>
    obtain ⟨t, ht, hbusy, hrest⟩ := s.engineTurn_next
    exact ⟨t, run_succ 0 ((step_nil s hinputs).trans ht), hbusy, hrest.trans hinputs⟩
  | cons e es ih =>
    obtain ⟨he, hes⟩ := List.forall_mem_cons.mp hes
    obtain ⟨u, hu, hrest⟩ := step_harmless hinputs he
    obtain ⟨t, ht, hidle⟩ := ih hes u hrest
    exact ⟨t, (run_succ (es.length + 1) hu).trans ht, hidle⟩

/-- Settles O6: by induction on the host's acts (`run_harmless`). -/
theorem completionIsReached : Obligations.CompletionIsReached := by
  unfold Obligations.CompletionIsReached
  exact fun s _ hacts => run_harmless s.inputs hacts s rfl

end Sys2Proof.Machine
end

section
/-!
PROOFS. The host's acts one by one (10_state.md section 2, 20_memory.md, 70_reset_and_hazards.md): each is the next
step's whole effect (`step_act`), and a write or an access that is not allowed stops the machine.
-/

namespace Sys2Proof.Machine

theorem State.whileIdle_idle {s : State} (t : State) (h : s.busy = false) : s.whileIdle t = .next t := by
  simp [State.whileIdle, h]

theorem State.whileIdle_busy {s : State} (t : State) (h : s.busy = true) :
    s.whileIdle t = .fault .hostWriteWhileBusy := by
  simp [State.whileIdle, h]

theorem withinCapacity_lt {k c : Nat} (r : Host.Outcome State Fault Refusal) (h : k < c) :
    withinCapacity k c r = r := if_pos h

theorem withinCapacity_ge {k c : Nat} (r : Host.Outcome State Fault Refusal) (h : c ≤ k) :
    withinCapacity k c r = .fault .noSuchUnit := if_neg (Nat.not_lt.mpr h)

/-- Settles O7: `State.whileIdle_idle`; the buffer after a write is `Memory.write`'s. -/
theorem hostWritesOneRegisterOrUnit : Obligations.HostWritesOneRegisterOrUnit := by
  unfold Obligations.HostWritesOneRegisterOrUnit
  refine ⟨fun s n rest hidle => ⟨fun h => ?_, fun h => ?_, fun h => ?_⟩,
    fun s k v rest hidle hk => ⟨fun h => ?_, fun h => ?_⟩⟩
  · exact (step_act s _ rest h nofun).trans (State.whileIdle_idle _ hidle)
  · exact (step_act s _ rest h nofun).trans (State.whileIdle_idle _ hidle)
  · exact (step_act s _ rest h nofun).trans (State.whileIdle_idle _ hidle)
  · exact ⟨s.inA.write k v,
      (step_act s _ rest h nofun).trans ((withinCapacity_lt _ hk).trans (State.whileIdle_idle _ hidle)),
      Memory.read_write_same _ k v, fun j => Memory.read_write_other _ k j v⟩
  · exact ⟨s.inB.write k v,
      (step_act s _ rest h nofun).trans ((withinCapacity_lt _ hk).trans (State.whileIdle_idle _ hidle)),
      Memory.read_write_same _ k v, fun j => Memory.read_write_other _ k j v⟩

/-- Settles O8: the act has no effect of its own. -/
theorem responseRegistersIgnoreHostWrites : Obligations.ResponseRegistersIgnoreHostWrites := by
  unfold Obligations.ResponseRegistersIgnoreHostWrites
  exact fun s r v rest h => step_act s _ rest h nofun

/-! Reads (R33, R36, R37, R185). -/

theorem Reg.isResponse_iff (r : Reg) : r.isResponse = true ↔ r ∈ [Reg.rsp, .errPos, .result, .lenOA, .lenOB] := by
  cases r <;> decide

theorem State.readReg_free {s : State} {r : Reg} (hbusy : s.busy = true) (hr : r.isResponse = true) :
    s.readReg r = s.latchFree (Config.freeWord s.draws) := by
  simp [State.readReg, hbusy, hr]

theorem State.readReg_value {s : State} {r : Reg} (h : ¬ (s.busy = true ∧ r.isResponse = true)) :
    s.readReg r = s.latch (s.regValue r) := by
  rw [State.readReg, if_neg (by rwa [Bool.and_eq_true])]

theorem State.regValue_busy (s : State) : s.regValue .busy = if s.busy then 1 else 0 := by
  cases h : s.busy <;> simp [State.regValue, h]

/-- Settles O9: a read of a response register while BUSY is 1 draws a free value, any other read latches the
register's own. -/
theorem hostReadsRegisters : Obligations.HostReadsRegisters := by
  unfold Obligations.HostReadsRegisters
  intro s r rest h
  have hstep : step s = .next (State.readReg { s with inputs := rest } r) := step_act s _ rest h nofun
  by_cases hfree : s.busy = true ∧ r.isResponse = true
  · obtain ⟨hbusy, hr⟩ := hfree
    have hother : ∀ q : Reg, q.isResponse = false → r ≠ q := by
      rintro q hq rfl
      rw [hr] at hq
      cases hq
    exact ⟨Config.freeWord s.draws, s.draws + 1, hstep.trans (congrArg _ (State.readReg_free hbusy hr)),
      fun h => absurd h (hother _ rfl), fun h => absurd h (hother _ rfl), fun h => absurd h (hother _ rfl),
      fun h => absurd h (hother _ rfl), fun hidle => absurd (hbusy.symm.trans hidle) nofun, fun _ _ => ⟨rfl, rfl⟩⟩
  · have hvalue : ∀ q, r = q → s.regValue r = s.regValue q ∧ s.draws = s.draws := by
      rintro q rfl
      exact ⟨rfl, rfl⟩
    exact ⟨s.regValue r, s.draws, hstep.trans (congrArg _ (State.readReg_value hfree)),
      hvalue .cmd, hvalue .lenA, hvalue .lenB, fun h => s.regValue_busy ▸ hvalue .busy h,
      fun _ => ⟨hvalue .rsp, hvalue .errPos, hvalue .result, hvalue .lenOA, hvalue .lenOB⟩,
      fun hbusy hr => absurd ⟨hbusy, r.isResponse_iff.mpr hr⟩ hfree⟩

theorem State.readOut_valid {s : State} {m : Memory} {k : Nat} {v : Byte} (hidle : s.busy = false)
    (hv : m.read k = some v) : s.readOut m k = s.latch (v.setWidth 32) := by
  simp only [State.readOut, hidle, hv]

theorem State.readOut_free {s : State} {m : Memory} {k : Nat} (h : s.busy = true ∨ m.read k = none) :
    s.readOut m k = s.latchFree ((Config.freeByte s.draws).setWidth 32) := by
  rcases h with hbusy | hnone
  · simp only [State.readOut, hbusy]
  · cases hbusy : s.busy <;> simp only [State.readOut, hbusy, hnone]

/-- What a step that reads unit `k` of an output buffer `m` answers. -/
theorem step_readOut {s : State} {m : Memory} {k : Nat} {rest : List HostEvent}
    (h : step s = .next (State.readOut { s with inputs := rest } m k)) :
    (∀ v, s.busy = false → m.read k = some v →
      step s = .next { s with hostData := v.setWidth 32, inputs := rest }) ∧
    (s.busy = true ∨ m.read k = none → step s = .next { s with
      hostData := (Config.freeByte s.draws).setWidth 32, draws := s.draws + 1, inputs := rest }) :=
  ⟨fun _ hidle hv => h.trans (congrArg _ (State.readOut_valid hidle hv)),
    fun hfree => h.trans (congrArg _ (State.readOut_free hfree))⟩

/-- Settles O10: both buffers are read alike (`step_readOut`). -/
theorem hostReadsOutputUnits : Obligations.HostReadsOutputUnits := by
  unfold Obligations.HostReadsOutputUnits
  refine fun s k rest => ⟨fun h hk => step_readOut ?_, fun h hk => step_readOut ?_⟩
  · exact (step_act s _ rest h nofun).trans (withinCapacity_lt _ hk)
  · exact (step_act s _ rest h nofun).trans (withinCapacity_lt _ hk)

/-! Acts that stop the machine (R30, R182). -/

/-- Settles O11: `State.whileIdle_busy`, for a unit after its capacity test. -/
theorem hostWritesWhileBusyStop : Obligations.HostWritesWhileBusyStop := by
  unfold Obligations.HostWritesWhileBusyStop
  intro s e rest hbusy h he
  rcases he with ⟨w, rfl⟩ | ⟨n, rfl⟩ | ⟨n, rfl⟩ | ⟨k, v, rfl, hk⟩ | ⟨k, v, rfl, hk⟩
  · exact (step_act s _ rest h nofun).trans (State.whileIdle_busy _ hbusy)
  · exact (step_act s _ rest h nofun).trans (State.whileIdle_busy _ hbusy)
  · exact (step_act s _ rest h nofun).trans (State.whileIdle_busy _ hbusy)
  · exact (step_act s _ rest h nofun).trans ((withinCapacity_lt _ hk).trans (State.whileIdle_busy _ hbusy))
  · exact (step_act s _ rest h nofun).trans ((withinCapacity_lt _ hk).trans (State.whileIdle_busy _ hbusy))

/-- Settles O12: `withinCapacity_ge`, before BUSY is looked at. -/
theorem noUnitBeyondTheCapacity : Obligations.NoUnitBeyondTheCapacity := by
  unfold Obligations.NoUnitBeyondTheCapacity
  refine fun s k v rest => ⟨fun hk h => ?_, fun hk h => ?_, fun hk h => ?_, fun hk h => ?_⟩
  · exact (step_act s _ rest h nofun).trans (withinCapacity_ge _ hk)
  · exact (step_act s _ rest h nofun).trans (withinCapacity_ge _ hk)
  · exact (step_act s _ rest h nofun).trans (withinCapacity_ge _ hk)
  · exact (step_act s _ rest h nofun).trans (withinCapacity_ge _ hk)

/-! Reset (R22, R180). -/

/-- Settles O13: the registers of `State.reset` by their values, its buffers by having no listed unit. -/
theorem resetValues : Obligations.ResetValues := by
  unfold Obligations.ResetValues
  exact ⟨rfl, rfl, rfl, rfl, rfl, rfl, rfl, rfl, rfl, rfl, rfl, fun _ => ⟨rfl, rfl, rfl, rfl⟩⟩

/-- Settles O14: the state the act leaves is `State.resetEvent`'s, whatever the state before. -/
theorem resetEventClearsTheBlock : Obligations.ResetEventClearsTheBlock := by
  unfold Obligations.ResetEventClearsTheBlock
  intro s rest h
  exact ⟨State.resetEvent { s with inputs := rest }, step_act s _ rest h nofun,
    rfl, rfl, rfl, rfl, rfl, rfl, rfl, rfl, rfl, fun _ => ⟨rfl, rfl, rfl, rfl⟩, rfl, rfl⟩

end Sys2Proof.Machine
end

section
/-!
PROOFS. The invariant of every step (R13, R30, R36, R37, R168). A host act touches one input buffer or no buffer; a
completion writes one of the two responses, and an operation that returns fills no output buffer beyond its capacity.
-/

namespace Sys2Proof.Machine

/-! Output lengths (R43, R30). -/

theorem reply_ok_wellFormed {i : Instr} {s : State} {p : Reply} (h : reply i s = .ok p) : i.wellFormed = true := by
  unfold reply at h
  split at h
  · next hlegal => exact hlegal.1
  · cases h

theorem wellFormed_convert_iff (pad : Bool) (f t : BitVec 4) : (Instr.convert pad f t).wellFormed = true ↔
    (1 ≤ f.toNat ∧ f.toNat ≤ 8) ∧ 1 ≤ t.toNat ∧ t.toNat ≤ 8 := by
  simp [Instr.wellFormed, legalWidth]

/-- Re-slicing gives at most eight units for each input unit, and one more with padding. -/
theorem convert_length_le {l f t : Nat} (pad : Bool) (hf : f ≤ 8) (ht : t ≤ 8) :
    (if pad then (l * f + t - 1) / t else l * f / t) ≤ 8 * l + 8 := by
  have hmul : l * f ≤ l * 8 := Nat.mul_le_mul_left l hf
  have hup := Nat.div_le_self (l * f + t - 1) t
  have hdown := Nat.div_le_self (l * f) t
  split <;> omega

/-- No operation that returns overflows an output buffer (R30, R43). -/
theorem reply_ok_capacity {i : Instr} {s : State} {p : Reply} (h : reply i s = .ok p) :
    p.outA.length ≤ 8 * Config.cap + 8 ∧ p.outB.length ≤ Config.cap := by
  obtain ⟨⟨hA, hB⟩, hrule⟩ := reply_ok h
  have hcap := cap_ge
  have hshape := rule_ok i s p hrule
  cases i with
  | csfwd arg => obtain ⟨-, -, hlen, hb⟩ := hshape; rw [hb, hlen]; exact ⟨by omega, Nat.zero_le _⟩
  | csinv arg => obtain ⟨-, -, hlen, hb⟩ := hshape; rw [hb, hlen]; exact ⟨by omega, Nat.zero_le _⟩
  | convert pad f t =>
    obtain ⟨-, -, hb, hlen⟩ := hshape
    have hw := reply_ok_wellFormed h
    obtain ⟨⟨-, hf⟩, -, ht⟩ := (wellFormed_convert_iff pad f t).mp hw
    have hle := convert_length_le (l := s.lenA.toNat) pad hf ht
    have hl := hA rfl
    rw [hb, hlen hw]
    exact ⟨by omega, Nat.zero_le _⟩
  | expand =>
    obtain ⟨-, -, hlen, hb⟩ := hshape
    have hl := hA rfl
    rw [hb, hlen]
    exact ⟨by omega, Nat.zero_le _⟩
  | polymod => obtain ⟨-, ha, hb⟩ := hshape; rw [ha, hb]; exact ⟨Nat.zero_le _, Nat.zero_le _⟩
  | ckcreate var => obtain ⟨-, -, hlen, hb⟩ := hshape; rw [hb, hlen]; exact ⟨by omega, Nat.zero_le _⟩
  | ckverify => obtain ⟨-, ha, hb⟩ := hshape; rw [ha, hb]; exact ⟨Nat.zero_le _, Nat.zero_le _⟩
  | encode var =>
    obtain ⟨-, -, hlen, hb, h83⟩ := hshape
    have hl := hB rfl
    rw [hb, hlen]
    exact ⟨by omega, Nat.zero_le _⟩
  | decode =>
    obtain ⟨-, -, h90, hrp, data, -, h6, hl, ha, hb⟩ := hshape
    constructor <;> omega
  | encodeb var =>
    obtain ⟨-, -, hlen, hb, h83⟩ := hshape
    have hl := hB rfl
    rw [hb, hlen]
    exact ⟨by omega, Nat.zero_le _⟩
  | decodeb var =>
    obtain ⟨-, hb, -, h90, hrp, data, -, h6, hl, ha⟩ := hshape
    rw [hb, ha]
    exact ⟨by omega, Nat.zero_le _⟩

theorem toNat_ofNat_length {units : List Byte} (h : units.length ≤ 8 * Config.cap + 8) :
    (BitVec.ofNat 32 units.length).toNat = units.length := by
  have hcap := cap_lt
  rw [BitVec.toNat_ofNat]
  omega

/-! The invariant, kept by what a step can do (`step_cases`). -/

/-- An act that leaves the response alone keeps the invariant if the input buffers stay canonical and in capacity. -/
theorem State.Inv.of_sameResponse {s t : State} (h : s.Inv) (hsame : t.SameResponse s) (hAwf : t.inA.wf = true)
    (hBwf : t.inB.wf = true) (hAcap : ∀ i, (t.inA.read i).isSome = true → i < Config.cap)
    (hBcap : ∀ i, (t.inB.read i).isSome = true → i < Config.cap) : t.Inv := by
  obtain ⟨hrsp, -, hresult, hlenOA, hlenOB, houtA, houtB⟩ := hsame
  constructor
  case inA_wf => exact hAwf
  case inB_wf => exact hBwf
  case inA_capacity => exact hAcap
  case inB_capacity => exact hBcap
  case outA_wf => rw [houtA]; exact h.outA_wf
  case outB_wf => rw [houtB]; exact h.outB_wf
  case outA_valid => rw [houtA, hlenOA]; exact h.outA_valid
  case outB_valid => rw [houtB, hlenOB]; exact h.outB_valid
  case outA_capacity => rw [hlenOA]; exact h.outA_capacity
  case outB_capacity => rw [hlenOB]; exact h.outB_capacity
  case rsp_reserved => rw [hrsp]; exact h.rsp_reserved
  case result_reserved => rw [hresult]; exact h.result_reserved
  case failure_empty =>
    rw [State.status, State.varOut, hrsp, hresult, hlenOA, hlenOB]
    exact h.failure_empty

/-- What changes neither a buffer nor the response keeps the invariant. -/
theorem State.Inv.of_sameBlock {s t : State} (h : s.Inv) (hsame : t.SameResponse s) (hA : t.inA = s.inA)
    (hB : t.inB = s.inB) : t.Inv :=
  h.of_sameResponse hsame (hA ▸ h.inA_wf) (hB ▸ h.inB_wf) (hA ▸ h.inA_capacity) (hB ▸ h.inB_capacity)

/-- A unit written below the capacity keeps all listed units below it. -/
theorem Memory.write_capacity {m : Memory} {k c : Nat} (v : Byte) (hk : k < c)
    (h : ∀ i, (m.read i).isSome = true → i < c) (i : Nat) (hi : ((m.write k v).read i).isSome = true) : i < c := by
  by_cases hik : i = k
  · exact hik ▸ hk
  · rw [Memory.read_write_other m k i v hik] at hi
    exact h i hi

theorem State.reset_inv : State.reset.Inv where
  inA_wf := rfl
  inB_wf := rfl
  outA_wf := rfl
  outB_wf := rfl
  inA_capacity := nofun
  inB_capacity := nofun
  outA_valid := fun _ => ⟨nofun, nofun⟩
  outB_valid := fun _ => ⟨nofun, nofun⟩
  outA_capacity := Nat.zero_le _
  outB_capacity := Nat.zero_le _
  rsp_reserved := rfl
  result_reserved := rfl
  failure_empty := fun h => absurd rfl h

/-- The failure response keeps the invariant: it lists no unit (R168). -/
theorem State.Inv.afterError {s : State} (h : s.Inv) (code : BitVec 4) (pos : Nat) : (s.afterError code pos).Inv where
  inA_wf := h.inA_wf
  inB_wf := h.inB_wf
  outA_wf := rfl
  outB_wf := rfl
  inA_capacity := h.inA_capacity
  inB_capacity := h.inB_capacity
  outA_valid := fun _ => ⟨nofun, nofun⟩
  outB_valid := fun _ => ⟨nofun, nofun⟩
  outA_capacity := Nat.zero_le _
  outB_capacity := Nat.zero_le _
  rsp_reserved := by
    rw [State.afterError_rsp, ← packRsp_false]
    exact packRsp_reserved code false
  result_reserved := by rw [State.afterError_result]; decide
  failure_empty := fun _ => ⟨s.afterError_varOut code pos, rfl, rfl, rfl⟩

theorem setWidth_poly_reserved (m : Poly) : (m.setWidth 32 : Word).extractLsb' 30 2 = 0 := by
  refine BitVec.eq_of_getLsbD_eq fun k hk => ?_
  interval_cases k <;> simp

/-- The response of an operation that returned keeps the invariant, where its sequences fit the output buffers. -/
theorem State.Inv.afterOk {s : State} (h : s.Inv) (var : Variant) (result : Poly) {outA outB : List Byte}
    (hA : outA.length ≤ 8 * Config.cap + 8) (hB : outB.length ≤ Config.cap) :
    (s.afterOk var (result.setWidth 32) outA outB).Inv := by
  have hlenA : (BitVec.ofNat 32 outA.length).toNat = outA.length := toNat_ofNat_length hA
  have hlenB : (BitVec.ofNat 32 outB.length).toNat = outB.length := toNat_ofNat_length (by omega)
  constructor
  case inA_wf => exact h.inA_wf
  case inB_wf => exact h.inB_wf
  case inA_capacity => exact h.inA_capacity
  case inB_capacity => exact h.inB_capacity
  case outA_wf => exact Memory.wf_ofUnits outA
  case outB_wf => exact Memory.wf_ofUnits outB
  case outA_valid =>
    intro i
    rw [State.afterOk_outA, State.afterOk_lenOA, hlenA]
    exact Memory.isSome_read_ofUnits outA i
  case outB_valid =>
    intro i
    rw [State.afterOk_outB, State.afterOk_lenOB, hlenB]
    exact Memory.isSome_read_ofUnits outB i
  case outA_capacity => rwa [State.afterOk_lenOA, hlenA]
  case outB_capacity => rwa [State.afterOk_lenOB, hlenB]
  case rsp_reserved => rw [State.afterOk_rsp, ← packRsp_ok]; exact packRsp_reserved statusOk var.bit
  case result_reserved => exact setWidth_poly_reserved result
  case failure_empty => exact fun hne => absurd (s.afterOk_status _ _ _ _) hne

/-- Every operation keeps the invariant. -/
theorem State.Inv.exec {s t : State} {i : Instr} (h : s.Inv) (hexec : exec i s = .next t) : t.Inv := by
  rcases exec_cases i s t hexec with ⟨e, _, rfl⟩ | ⟨p, hp, rfl⟩
  · exact h.afterError _ _
  · obtain ⟨hA, hB⟩ := reply_ok_capacity hp
    exact h.afterOk p.var p.result hA hB

/-- The engine's completion keeps the invariant. -/
theorem State.Inv.complete {s t : State} (h : s.Inv) (ht : s.complete = .next t) : t.Inv := by
  rcases s.complete_cases t ht with ⟨i, _, hexec⟩ | ⟨r, _, rfl⟩
  · exact h.exec hexec
  · exact h.afterError _ _

/-- Every act of the host keeps the invariant. -/
theorem State.Inv.hostAct {s t : State} {e : HostEvent} (h : s.Inv) (ht : s.hostAct e = .next t) : t.Inv := by
  have hsame : s.SameResponse s := ⟨rfl, rfl, rfl, rfl, rfl, rfl, rfl⟩
  rcases s.hostAct_cases t e ht with ⟨w, -, -, rfl⟩ | ⟨n, -, -, rfl⟩ | ⟨n, -, -, rfl⟩ |
    ⟨k, v, -, hk, -, rfl⟩ | ⟨k, v, -, hk, -, rfl⟩ | ⟨v, d, rfl⟩ | ⟨-, rfl⟩
  · exact h.of_sameBlock hsame rfl rfl
  · exact h.of_sameBlock hsame rfl rfl
  · exact h.of_sameBlock hsame rfl rfl
  · exact h.of_sameResponse hsame (Memory.wf_write s.inA k v h.inA_wf) h.inB_wf
      (Memory.write_capacity v hk h.inA_capacity) h.inB_capacity
  · exact h.of_sameResponse hsame h.inA_wf (Memory.wf_write s.inB k v h.inB_wf) h.inA_capacity
      (Memory.write_capacity v hk h.inB_capacity)
  · exact h.of_sameBlock hsame rfl rfl
  · exact State.reset_inv.of_sameBlock ⟨rfl, rfl, rfl, rfl, rfl, rfl, rfl⟩ rfl rfl

/-- Settles O15: a step is an act of the host, a completion or nothing (`step_cases`), on the state with the host's
act taken off, and each of the three keeps the invariant. -/
theorem everyStepKeepsTheInvariant : Obligations.EveryStepKeepsTheInvariant := by
  unfold Obligations.EveryStepKeepsTheInvariant
  intro s t h hstep
  obtain ⟨u, hu, hact⟩ := step_cases s t hstep
  have hinv : u.Inv := by
    rcases hu with ⟨rfl, _⟩ | ⟨e, rest, _, rfl⟩
    · exact h
    · exact h.of_sameBlock ⟨rfl, rfl, rfl, rfl, rfl, rfl, rfl⟩ rfl rfl
  rcases hact with ⟨e, he⟩ | ⟨_, hcomplete⟩ | rfl
  · exact hinv.hostAct he
  · exact hinv.complete hcomplete
  · exact hinv

/-- Settles O16: the reset state lists no unit and its registers are 0 (`State.reset_inv`). -/
theorem resetMeetsTheInvariant : Obligations.ResetMeetsTheInvariant := State.reset_inv

end Sys2Proof.Machine
end

section
/-!
PROOFS. What holds of every completion (R13, R20, R43, R168, R169, R174): its frame, what a failure and a success
show, the matrix of error kinds, the inputs it depends on and the lengths it writes.
-/

namespace Sys2Proof.Machine

/-- The frame of a completion: neither the command, the inputs nor the model's own fields change. -/
theorem State.finish_frame (s : State) (r : Except Raise Reply) :
    (s.finish r).cmd = s.cmd ∧ (s.finish r).lenA = s.lenA ∧ (s.finish r).lenB = s.lenB ∧
    (s.finish r).inA = s.inA ∧ (s.finish r).inB = s.inB ∧ (s.finish r).hostData = s.hostData ∧
    (s.finish r).epoch = s.epoch ∧ (s.finish r).draws = s.draws := by
  cases r with
  | error e => exact ⟨rfl, rfl, rfl, rfl, rfl, rfl, rfl, rfl⟩
  | ok p => exact ⟨rfl, rfl, rfl, rfl, rfl, rfl, rfl, rfl⟩

/-- Settles O17: every operation finishes (`exec_eq`), in the frame of `State.finish_frame`. -/
theorem operationsCompleteAndKeepTheirInputs : Obligations.OperationsCompleteAndKeepTheirInputs := by
  unfold Obligations.OperationsCompleteAndKeepTheirInputs
  intro i s
  obtain ⟨hcmd, hlenA, hlenB, hinA, hinB, hhost, hepoch, hdraws⟩ := s.finish_frame (reply i s)
  exact ⟨_, exec_eq i s, s.finish_busy _, hcmd, hlenA, hlenB, fun k => congrArg (Memory.read · k) hinA,
    fun k => congrArg (Memory.read · k) hinB, hinA, hinB, hhost, hepoch, hdraws, s.finish_inputs _⟩

/-- What an operation raises, IllegalCommand among it, comes with position 0 unless its kind carries one (R169). -/
theorem reply_error_pos {i : Instr} {s : State} {e : Raise} (h : reply i s = .error e)
    (hcarries : carriesPosition e.kind.code.toNat = false) : e.pos = 0 := by
  rcases reply_error h with rfl | hrule
  · rfl
  · obtain ⟨_, hpos⟩ := rule_error i s e hrule
    exact hpos hcarries

/-- Settles O18: only the failure response has a STATUS other than 0. -/
theorem failureShowsOnlyStatusAndPosition : Obligations.FailureShowsOnlyStatusAndPosition := by
  unfold Obligations.FailureShowsOnlyStatusAndPosition
  intro i s t hexec hstatus
  rcases exec_cases i s t hexec with ⟨e, he, rfl⟩ | ⟨p, _, rfl⟩
  · rw [State.afterError_status]
    exact ⟨e.pos, rfl, reply_error_pos he⟩
  · exact absurd (s.afterOk_status _ _ _ _) hstatus

/-- Which of the fields VAR_OUT, RESULT and OUT_B an operation that returns can fill (R43). -/
theorem reply_ok_fields {i : Instr} {s : State} {p : Reply} (h : reply i s = .ok p) :
    (p.var = .b → i = .ckverify ∨ i = .decode ∨ ∃ var, i = .decodeb var) ∧
    (p.result ≠ 0 → i = .polymod) ∧ (p.outB ≠ [] → i = .decode) := by
  obtain ⟨-, hrule⟩ := reply_ok h
  have hshape := rule_ok i s p hrule
  cases i with
  | csfwd arg => obtain ⟨hv, hr, -, hb⟩ := hshape; simp [hv, hr, hb]
  | csinv arg => obtain ⟨hv, hr, -, hb⟩ := hshape; simp [hv, hr, hb]
  | convert pad f t => obtain ⟨hv, hr, hb, -⟩ := hshape; simp [hv, hr, hb]
  | expand => obtain ⟨hv, hr, -, hb⟩ := hshape; simp [hv, hr, hb]
  | polymod => obtain ⟨hv, -, hb⟩ := hshape; simp [hv, hb]
  | ckcreate var => obtain ⟨hv, hr, -, hb⟩ := hshape; simp [hv, hr, hb]
  | ckverify => obtain ⟨hr, -, hb⟩ := hshape; simp [hr, hb]
  | encode var => obtain ⟨hv, hr, -, hb, -⟩ := hshape; simp [hv, hr, hb]
  | decode => obtain ⟨hr, -⟩ := hshape; simp [hr]
  | encodeb var => obtain ⟨hv, hr, -, hb, -⟩ := hshape; simp [hv, hr, hb]
  | decodeb var => obtain ⟨hr, hb, -⟩ := hshape; simp [hr, hb]

/-- Settles O19: `reply_ok_fields`, read through the response. -/
theorem successWritesOnlyTheOperationsResults : Obligations.SuccessWritesOnlyTheOperationsResults := by
  unfold Obligations.SuccessWritesOnlyTheOperationsResults
  intro i s t hexec h0
  obtain ⟨p, hp, rfl⟩ := exec_status_zero hexec h0
  obtain ⟨hvar, hresult, houtB⟩ := reply_ok_fields hp
  refine ⟨rfl, fun hv => hvar ?_, fun hr => hresult ?_, fun hl => houtB ?_⟩
  · rw [State.afterOk_varOut] at hv
    exact Variant.bit_inj.mp hv
  · rintro hzero
    rw [State.afterOk_result, hzero] at hr
    exact hr rfl
  · rintro hnil
    rw [State.afterOk_lenOB, hnil] at hl
    exact hl rfl

/-! The matrix (R174). -/

theorem illegalCommand_reportable (op : Nat) : ErrorKind.illegalCommand.code.toNat ∈ reportable op := by
  unfold reportable
  split <;> decide

/-- The kinds an operation's rule raises stand in the row of its OP. -/
theorem ruleKinds_reportable (i : Instr) : ∀ k ∈ ruleKinds i,
    k.code.toNat ∈ reportable ((encodeCommand i).extractLsb' 0 4).toNat := by
  cases i <;> simp [ruleKinds, encodeCommand, opField_packCommand, reportable, ErrorKind.code]

/-- Settles O20: a rejected word and an illegal operation report IllegalCommand, in every row; an operation's rule
reports its own kinds. -/
theorem statusStaysInTheMatrix : Obligations.StatusStaysInTheMatrix := by
  unfold Obligations.StatusStaysInTheMatrix
  intro s t hbusy hinputs hstep
  rw [step_nil s hinputs, s.engineTurn_busy hbusy] at hstep
  rcases s.complete_cases t hstep with ⟨i, hi, hexec⟩ | ⟨r, _, rfl⟩
  · have hword := encodeCommand_of_decodeCommand hi
    rcases exec_cases i s t hexec with ⟨e, he, rfl⟩ | ⟨p, _, rfl⟩
    · rw [State.afterError_status]
      rcases reply_error he with rfl | hrule
      · exact .inr (illegalCommand_reportable _)
      · obtain ⟨hmem, _⟩ := rule_error i s e hrule
        exact .inr (hword ▸ ruleKinds_reportable i e.kind hmem)
    · rw [State.afterOk_status]
      exact .inl rfl
  · rw [State.afterError_status]
    exact .inr (illegalCommand_reportable _)

/-! What a response depends on (R20). -/

/-- What an operation ends with is determined by the sequences of the buffers it reads. -/
theorem reply_congr {i : Instr} {s u : State} (hA : readsA i = true → s.unitsA = u.unitsA)
    (hB : readsB i = true → s.unitsB = u.unitsB) : reply i s = reply i u := by
  have hlegal : lengthsLegal i s ↔ lengthsLegal i u := by
    refine and_congr (forall_congr' fun h => ?_) (forall_congr' fun h => ?_)
    · rw [← s.length_unitsA, ← u.length_unitsA, hA h]
    · rw [← s.length_unitsB, ← u.length_unitsB, hB h]
  have hrule : rule i s = rule i u := by
    cases i with
    | csfwd arg => rfl
    | csinv arg => rfl
    | convert pad f t => simp only [rule, hA rfl]
    | expand => simp only [rule, hA rfl]
    | polymod => simp only [rule, hA rfl]
    | ckcreate var => simp only [rule, hA rfl, hB rfl]
    | ckverify => simp only [rule, hA rfl, hB rfl]
    | encode var => simp only [rule, hA rfl, hB rfl]
    | decode => simp only [rule, hA rfl]
    | encodeb var => simp only [rule, hA rfl, hB rfl]
    | decodeb var => simp only [rule, hA rfl, hB rfl]
  simp only [reply, hlegal, hrule]

/-- Settles O21: equal units below equal lengths are equal sequences, which determine the response. -/
theorem responseDependsOnlyOnTheInputsRead : Obligations.ResponseDependsOnlyOnTheInputsRead := by
  unfold Obligations.ResponseDependsOnlyOnTheInputsRead
  intro i s u s' u' hA hB hs hu
  have hreply : reply i s = reply i u := reply_congr
    (fun h => s.unitsA_congr u (hA h).1 (hA h).2) (fun h => s.unitsB_congr u (hB h).1 (hB h).2)
  obtain ⟨hrsp, herrPos, hresult, hlenOA, hlenOB, houtA, houtB⟩ := exec_sameResponse hreply hs hu
  exact ⟨hrsp, herrPos, hresult, hlenOA, hlenOB, fun k => congrArg (Memory.read · k) houtA,
    fun k => congrArg (Memory.read · k) houtB⟩

/-- Settles O23: `State.getElem?_unitsA` and `State.getElem?_unitsB`, with what one unit is. -/
theorem operandsAreTheUnitsTheHostWrote : Obligations.OperandsAreTheUnitsTheHostWrote := by
  unfold Obligations.OperandsAreTheUnitsTheHostWrote
  exact fun s => ⟨s.length_unitsA, s.length_unitsB, s.getElem?_unitsA, s.getElem?_unitsB⟩

/-! The lengths a success writes (R43). -/

/-- A string splits at its last '1' in one place only (R131 step 3). -/
theorem splitsAt_length_unique {str hrp data hrp' data' : List Byte} (h : splitsAt str hrp data)
    (h' : splitsAt str hrp' data') : hrp.length = hrp'.length := by
  have hsep := lastSeparator_split hrp data 0 none h.2
  have hsep' := lastSeparator_split hrp' data' 0 none h'.2
  rw [← h.1] at hsep
  rw [← h'.1, hsep, Option.some.injEq] at hsep'
  omega

/-- Settles O22: the lengths of `rule_ok`, which the registers hold because no output exceeds its buffer. -/
theorem outputLengthsAreTheTables : Obligations.OutputLengthsAreTheTables := by
  unfold Obligations.OutputLengthsAreTheTables
  intro i s t hexec h0
  obtain ⟨p, hp, rfl⟩ := exec_status_zero hexec h0
  obtain ⟨hcapA, hcapB⟩ := reply_ok_capacity hp
  have hlenA : (BitVec.ofNat 32 p.outA.length).toNat = p.outA.length := toNat_ofNat_length hcapA
  have hlenB : (BitVec.ofNat 32 p.outB.length).toNat = p.outB.length := toNat_ofNat_length (by omega)
  have hshape := rule_ok i s p (reply_ok hp).2
  have hnoB : p.outB = [] → BitVec.ofNat 32 p.outB.length = 0 := fun hb => by rw [hb]; rfl
  simp only [State.afterOk_lenOA, State.afterOk_lenOB]
  refine ⟨?oneUnit, ?padded, ?unpadded, ?expand, ?polymod, ?ckcreate, ?ckverify, ?encode, ?decode, ?encodeb,
    ?decodeb⟩
  case oneUnit =>
    rintro arg (rfl | rfl)
    · obtain ⟨-, -, hlen, hb⟩ := hshape
      exact ⟨hlenA.trans hlen, hnoB hb⟩
    · obtain ⟨-, -, hlen, hb⟩ := hshape
      exact ⟨hlenA.trans hlen, hnoB hb⟩
  case padded =>
    rintro f w rfl hw
    obtain ⟨-, -, hb, hlen⟩ := hshape
    exact ⟨hlenA.trans (hlen hw), hnoB hb⟩
  case unpadded =>
    rintro f w rfl hw
    obtain ⟨-, -, hb, hlen⟩ := hshape
    exact ⟨hlenA.trans (hlen hw), hnoB hb⟩
  case expand =>
    rintro rfl
    obtain ⟨-, -, hlen, hb⟩ := hshape
    exact ⟨hlenA.trans hlen, hnoB hb⟩
  case polymod =>
    rintro rfl
    obtain ⟨-, ha, hb⟩ := hshape
    exact ⟨by rw [ha]; rfl, hnoB hb⟩
  case ckcreate =>
    rintro var rfl
    obtain ⟨-, -, hlen, hb⟩ := hshape
    exact ⟨hlenA.trans hlen, hnoB hb⟩
  case ckverify =>
    rintro rfl
    obtain ⟨-, ha, hb⟩ := hshape
    exact ⟨by rw [ha]; rfl, hnoB hb⟩
  case encode =>
    rintro var rfl
    obtain ⟨-, -, hlen, hb, -⟩ := hshape
    exact ⟨hlenA.trans hlen, hnoB hb⟩
  case decode =>
    rintro hrp data rfl hs
    obtain ⟨-, -, -, hrp', data', hs', h6, hl, ha, hb⟩ := hshape
    have hunique := splitsAt_length_unique hs hs'
    exact ⟨by omega, by omega⟩
  case encodeb =>
    rintro var rfl
    obtain ⟨-, -, hlen, hb, -⟩ := hshape
    exact ⟨hlenA.trans hlen, hnoB hb⟩
  case decodeb =>
    rintro var hrp data rfl hs
    obtain ⟨-, hb, -, -, hrp', data', hs', h6, hl, ha⟩ := hshape
    have hunique := splitsAt_length_unique hs hs'
    exact ⟨by omega, hnoB hb⟩

end Sys2Proof.Machine
end

section
/-!
PROOFS. The bit converter (R91, R92): it re-slices the bit stream (`convert_eq_resliced_bitStream`), so its lengths
and bounds are those of the units cut from a stream.
-/

namespace Sys2Proof.Machine

/-- Settles O29: R91's loops on units that fit, and the first unit that does not. -/
theorem convertReslicesTheBitStream : Obligations.ConvertReslicesTheBitStream := by
  unfold Obligations.ConvertReslicesTheBitStream
  exact fun f t pad _ hf ht _ => ⟨fun _ => convert_eq_resliced_bitStream pad hf ht,
    fun _ after _ => convert_wide t pad after⟩

/-- Without padding a re-slicing that is no error drops less than one input unit. -/
theorem resliced_unpadded_ok {f t : Nat} {bits : List Bool} {out : List Byte}
    (h : resliced f t false bits = .ok out) : out = wholeUnits t bits ∧ (leftoverBits t bits).length < f := by
  rw [resliced, if_neg Bool.false_ne_true] at h
  split at h
  · cases h
  · next hdrop => cases h; exact ⟨rfl, Nat.lt_of_not_le fun hc => hdrop (.inl hc)⟩

/-- Every unit a re-slicing gives fits the output width (R92 item 4). -/
theorem resliced_fit {f t : Nat} {pad : Bool} (ht1 : 1 ≤ t) (ht8 : t ≤ 8) {bits : List Bool} {out : List Byte}
    (h : resliced f t pad bits = .ok out) : ∀ v ∈ out, v.toNat < 2 ^ t := by
  cases pad with
  | true =>
    obtain ⟨units, k, hunits, -, hfit, -⟩ := resliced_padded f ht1 ht8 bits
    rw [h] at hunits
    cases hunits
    exact hfit
  | false =>
    obtain ⟨rfl, -⟩ := resliced_unpadded_ok h
    exact wholeUnits_fit t bits

/-- Re-slicing is the identity on a stream cut into whole units already (R92 items 5 and 8). -/
theorem resliced_of_no_leftover {f t : Nat} (pad : Bool) (hf : 1 ≤ f) {bits : List Bool}
    (h : leftoverBits t bits = []) : resliced f t pad bits = .ok (wholeUnits t bits) := by
  have hpos : ¬ f ≤ 0 := Nat.not_le.mpr hf
  cases pad <;> simp [resliced, h, hpos]

/-- Settles O30: the bits left over are T mod toBits; five-bit groups that leave five of them or more are a padding
error. -/
theorem convertLengthsAndBounds : Obligations.ConvertLengthsAndBounds := by
  unfold Obligations.ConvertLengthsAndBounds
  intro f t pad input hf1 hf8 ht1 ht8 hfit
  have hconv : ∀ pad, convert input f t pad = resliced f t pad (bitStream f input) := fun pad =>
    convert_eq_resliced_bitStream pad hf8 ht1 hfit
  have hlength := fun pad => convert_length f t pad hf8 ht1 input hfit
  refine ⟨?padded, ?unpadded, ?bounds, ?empty, ?fiveToEight, ?equalWidths⟩
  case padded =>
    rintro rfl
    obtain ⟨out, k, hout, -⟩ := resliced_padded f ht1 ht8 (bitStream f input)
    rw [← hconv] at hout
    exact ⟨out, hout, hlength true out hout⟩
  case unpadded =>
    intro out hout
    refine ⟨hlength false out hout, ?_⟩
    rw [hconv] at hout
    obtain ⟨-, hleft⟩ := resliced_unpadded_ok hout
    rwa [length_leftoverBits, length_bitStream] at hleft
  case bounds =>
    intro out hout
    rw [hconv] at hout
    exact resliced_fit ht1 ht8 hout
  case empty =>
    have hempty := convert_eq_resliced_bitStream pad hf8 ht1 (input := []) nofun
    obtain ⟨hwhole, hleft⟩ := wholeUnits_of_lt t [] ht1, leftoverBits_of_lt t [] ht1
    rw [hempty]
    exact (resliced_of_no_leftover pad hf1 hleft).trans (congrArg _ hwhole)
  case fiveToEight =>
    rintro rfl rfl hmod
    refine convert_badPadding hf8 ht1 hfit (.inl ?_)
    rw [length_leftoverBits, length_bitStream]
    omega
  case equalWidths =>
    rintro rfl
    obtain ⟨hwhole, hleft⟩ := wholeUnits_bitStream f hf1 hf8 input hfit
    rw [hconv, resliced_of_no_leftover pad hf1 hleft, hwhole]

/-- Settles O31: `convert_bytes_roundTrip`. -/
theorem convertBackGivesTheBytes : Obligations.ConvertBackGivesTheBytes := by
  unfold Obligations.ConvertBackGivesTheBytes
  intro bytes
  obtain ⟨groups, hgroups, -, hfit, hback⟩ := convert_bytes_roundTrip bytes
  exact ⟨groups, hgroups, hfit, hback⟩

end Sys2Proof.Machine
end

section
/-!
PROOFS. What each operation delivers (R80, R81, R90, R105 to R108, R120, R122, R130, R132): a legal command ends with
its rule's result (`exec_of_rule`), and the rule's result is the one the statement writes out.
-/

namespace Sys2Proof.Machine

/-- A legal command whose rule returns leaves the rule's result. -/
theorem exec_of_rule {i : Instr} {s : State} {p : Reply} (hw : i.wellFormed = true) (hl : lengthsLegal i s)
    (h : rule i s = .ok p) : exec i s = .next (s.afterOk p.var (p.result.setWidth 32) p.outA p.outB) :=
  exec_ok i s p ((reply_legal i s hw hl).trans h)

/-! The charset mapper. -/

theorem symbolOf_eq_alphabet {v : Byte} (hv : v.toNat ≤ 31) : symbolOf v =
    BitVec.ofNat 8 ("qpzry9x8gf2tvdw0s3jn54khce6mua7l".toList.getD v.toNat ' ').toNat :=
  byte_of_forall_lt (P := fun v => symbolOf v =
    BitVec.ofNat 8 ("qpzry9x8gf2tvdw0s3jn54khce6mua7l".toList.getD v.toNat ' ').toNat) (k := 32) (by decide) (by omega)

/-- The inverse look-up of the code of the alphabet's character `k`, in either case. -/
theorem valueOf_alphabet {k : Nat} (hk : k < 32) {c : Byte}
    (hc : c.toNat = ("qpzry9x8gf2tvdw0s3jn54khce6mua7l".toList.getD k ' ').toNat ∨
      c.toNat = ("QPZRY9X8GF2TVDW0S3JN54KHCE6MUA7L".toList.getD k ' ').toNat) : (valueOf c).toNat = k := by
  have htable : ∀ k < 32,
      (valueOf (BitVec.ofNat 8 ("qpzry9x8gf2tvdw0s3jn54khce6mua7l".toList.getD k ' ').toNat)).toNat = k ∧
      (valueOf (BitVec.ofNat 8 ("QPZRY9X8GF2TVDW0S3JN54KHCE6MUA7L".toList.getD k ' ').toNat)).toNat = k := by decide
  have hself : c = BitVec.ofNat 8 c.toNat := by simp
  rw [hself]
  rcases hc with hc | hc <;> rw [hc]
  · exact (htable k hk).1
  · exact (htable k hk).2

/-- A code with a value is a character of the alphabet, in either case. -/
theorem exists_char_of_valueOf_ne {c : Byte} (hc : valueOf c ≠ 0xFF) :
    ∃ x ∈ "qpzry9x8gf2tvdw0s3jn54khce6mua7lQPZRYXGFTVDWSJNKHCEMUAL".toList, c.toNat = x.toNat := by
  have hlt : c.toNat < 128 := Nat.lt_of_not_le fun h => hc (valueOf_of_128_le h)
  have htable : ∀ n ∈ (List.range 128).filter (fun n => valueOf (BitVec.ofNat 8 n) ≠ 0xFF),
      n ∈ "qpzry9x8gf2tvdw0s3jn54khce6mua7lQPZRYXGFTVDWSJNKHCEMUAL".toList.map Char.toNat := by decide
  have hvalid : c.toNat ∈ (List.range 128).filter (fun n => valueOf (BitVec.ofNat 8 n) ≠ 0xFF) :=
    List.mem_filter.mpr ⟨List.mem_range.mpr hlt, by simpa using hc⟩
  obtain ⟨x, hx, hcode⟩ := List.mem_map.mp (htable c.toNat hvalid)
  exact ⟨x, hx, hcode.symm⟩

/-- Settles O32: CHARSET is the alphabet's codes in order (`symbolOf_eq_alphabet`). -/
theorem csfwdGivesTheCharacter : Obligations.CsfwdGivesTheCharacter := by
  unfold Obligations.CsfwdGivesTheCharacter
  intro arg s harg
  rw [← symbolOf_eq_alphabet harg]
  exact exec_of_rule (i := .csfwd arg) rfl ⟨nofun, nofun⟩ (if_neg (Nat.not_lt.mpr harg))

/-- Settles O33: the result is `valueOf`'s, and the two lemmas above say which. -/
theorem csinvGivesTheIndex : Obligations.CsinvGivesTheIndex := by
  unfold Obligations.CsinvGivesTheIndex
  intro arg s
  refine ⟨valueOf arg, exec_of_rule (i := .csinv arg) rfl ⟨nofun, nofun⟩ rfl, fun k hk => valueOf_alphabet hk,
    fun hnone => ?_⟩
  by_contra hc
  obtain ⟨x, hx, heq⟩ := exists_char_of_valueOf_ne hc
  exact hnone x hx heq

/-! The converter and the checksum engine. -/

/-- Settles O34: convert gives the re-slicing, which returns. -/
theorem convertDeliversTheUnits : Obligations.ConvertDeliversTheUnits := by
  unfold Obligations.ConvertDeliversTheUnits
  intro pad f t s out hf1 hf8 ht1 ht8 hA hfit hout
  rw [← convert_eq_resliced_bitStream pad hf8 ht1 hfit] at hout
  have hw := (wellFormed_convert_iff pad f t).mpr ⟨⟨hf1, hf8⟩, ht1, ht8⟩
  have hrule : rule (.convert pad f t) s = .ok { outA := out } := by
    simp only [rule, convertReply, hout]
  exact exec_of_rule hw ⟨fun _ => hA, nofun⟩ hrule

/-- Settles O35: EXPAND's rule refuses nothing. -/
theorem expandDeliversTheExpansion : Obligations.ExpandDeliversTheExpansion := by
  unfold Obligations.ExpandDeliversTheExpansion
  exact fun s hA => exec_of_rule (i := .expand) rfl ⟨fun _ => hA, nofun⟩ rfl

/-- Settles O36: past the domain test, the result register is the polymod zero-extended. -/
theorem polymodDeliversTheResult : Obligations.PolymodDeliversTheResult := by
  unfold Obligations.PolymodDeliversTheResult
  intro s hA hgroups
  rw [BitVec.ofNat_toNat]
  exact exec_of_rule (i := .polymod) rfl ⟨fun _ => hA, nofun⟩ (checkGroups_groups _ _ hgroups)

/-- Settles O37: past the domain test, CKCREATE returns R103's checksum. -/
theorem ckcreateDeliversTheChecksum : Obligations.CkcreateDeliversTheChecksum := by
  unfold Obligations.CkcreateDeliversTheChecksum
  intro var s hA hB hgroups
  exact exec_of_rule (i := .ckcreate var) rfl ⟨fun _ => hA, fun _ => hB⟩ (checkGroups_groups _ _ hgroups)

/-- Settles O38: past the domain test, verification finds the variant (`verifyChecksum_eq_some`). -/
theorem ckverifyDeliversTheVariant : Obligations.CkverifyDeliversTheVariant := by
  unfold Obligations.CkverifyDeliversTheVariant
  intro var s hA hB hgroups hpoly
  have hverify := (verifyChecksum_eq_some s.unitsA s.unitsB var).mpr hpoly
  have hrule : rule .ckverify s = .ok { var := var } := by
    simp only [rule, ckverifyReply, checkGroups_groups _ _ hgroups, hverify]
  exact exec_of_rule rfl ⟨fun _ => hA, fun _ => hB⟩ hrule

/-! The encoder. -/

theorem encodedString_eq (var : Variant) (hrp values : List Byte) : encodedString var hrp values =
    hrp ++ 0x31 :: (values ++ createChecksum var hrp values).map symbolOf := by
  simp [encodedString, separator]

/-- Settles O39: `encodeReply_eq_ok`. -/
theorem encodeDeliversTheString : Obligations.EncodeDeliversTheString := by
  unfold Obligations.EncodeDeliversTheString
  intro var s h1 h83 hB hgroups
  dsimp only
  rw [← encodedString_eq]
  have hA := le_cap_of_le_90 (h83.trans (by decide))
  rw [← s.length_unitsA] at h1 h83
  exact exec_of_rule (i := .encode var) rfl ⟨fun _ => hA, fun _ => hB⟩ (encodeReply_eq_ok var h1 h83 hgroups)

/-- Settles O41: every byte sequence regroups into 5-bit groups (`convert_bytes_roundTrip`), and on these ENCODEB's
rule is ENCODE's. -/
theorem encodebDeliversTheString : Obligations.EncodebDeliversTheString := by
  unfold Obligations.EncodebDeliversTheString
  intro var s h1 h83 hB
  obtain ⟨groups, hgroups, -, hfit, -⟩ := convert_bytes_roundTrip s.unitsB
  have hresliced := hgroups
  rw [convert_eq_resliced_bitStream true le_rfl (by decide) fun v _ => v.isLt] at hresliced
  refine ⟨groups, hresliced, ?_⟩
  dsimp only
  rw [← encodedString_eq]
  have hA := le_cap_of_le_90 (h83.trans (by decide))
  rw [← s.length_unitsA] at h1 h83
  have hrule : rule (.encodeb var) s = .ok { outA := encodedString var (s.unitsA.map lower) groups } :=
    (encodebReply_of_convert var _ hgroups).trans (encodeReply_eq_ok var h1 h83 hfit)
  exact exec_of_rule rfl ⟨fun _ => hA, fun _ => hB⟩ hrule

/-! The decoder. -/

/-- Settles O40: R131 accepts such a string (`decodeString_eq_ok`). -/
theorem decodeDeliversTheParts : Obligations.DecodeDeliversTheParts := by
  unfold Obligations.DecodeDeliversTheParts
  intro var s hrp data h8 h90 hclean hs hne h6 ha hpoly
  rw [← s.length_unitsA] at h8 h90
  exact exec_decode_of_decodeString (decodeString_eq_ok h8 h90 hne hclean hs h6 ha hpoly)

/-- Settles O42: R131 accepts the string, with the expected variant and human-readable part, and its payload, whose
values are 5-bit groups, converts as its stream re-slices. -/
theorem decodebDeliversTheBytes : Obligations.DecodebDeliversTheBytes := by
  unfold Obligations.DecodebDeliversTheBytes
  intro var s hrp data bytes h8 h90 hB hclean hs hne h6 ha hpoly hprefix hbytes
  rw [← s.length_unitsA] at h8 h90
  have hfit : ∀ v ∈ (data.map valueOf).take (data.length - 6), v.toNat < 2 ^ 5 := fun v hv =>
    Nat.lt_succ_of_le (valueOf_group data ha v (List.mem_of_mem_take hv))
  rw [← convert_eq_resliced_bitStream false (by decide) (by decide) hfit] at hbytes
  exact exec_decodeb_of_decodeString (decodeString_eq_ok h8 h90 hne hclean hs h6 ha hpoly) hprefix.symm hbytes

end Sys2Proof.Machine
end

section
/-!
PROOFS. The encoder's output (R123 items 1 and 2): the lowercased human-readable part, the separator and symbols of
the alphabet, the same for human-readable parts that differ in case only.
-/

namespace Sys2Proof.Machine

/-- What ENCODE or ENCODEB returns: the string of the lowercased human-readable part and some 5-bit
values. -/
theorem reply_encoder_ok {i : Instr} {var : Variant} {s : State} {p : Reply} (hi : i = .encode var ∨ i = .encodeb var)
    (h : reply i s = .ok p) :
    ∃ values, areGroups values ∧ p = { outA := encodedString var (s.unitsA.map lower) values } := by
  obtain ⟨-, hrule⟩ := reply_ok h
  rcases hi with rfl | rfl
  · obtain ⟨-, -, hgroups, hp⟩ := encodeReply_ok var s.unitsA s.unitsB p hrule
    exact ⟨s.unitsB, hgroups, hp⟩
  · obtain ⟨groups, hconv, -⟩ := convert_bytes_roundTrip s.unitsB
    have hrule : encodeReply var s.unitsA groups = .ok p := (encodebReply_of_convert var _ hconv).symm.trans hrule
    obtain ⟨-, -, hgroups, hp⟩ := encodeReply_ok var s.unitsA groups p hrule
    exact ⟨groups, hgroups, hp⟩

/-- No character of an encoded string is a capital letter. -/
theorem encodedString_not_upperCode (var : Variant) (hrp : List Byte) {values : List Byte} (hv : areGroups values) :
    ∀ c ∈ encodedString var (hrp.map lower) values, ¬ upperCode c := by
  have hsymbols : ∀ c ∈ (values ++ createChecksum var (hrp.map lower) values).map symbolOf, ¬ upperCode c :=
    fun c hc => (charset_codes c
      (mem_charset_of_mem_symbols (areGroups_append_createChecksum var _ hv) hc)).2.1
  rw [encodedString_eq, List.forall_mem_append, List.forall_mem_cons, List.forall_mem_map]
  exact ⟨fun c _ => not_upperCode_lower c, by decide, hsymbols⟩

/-- ENCODE's rule looks at the length and the lowercased characters of the human-readable part only (R120). -/
theorem encodeReply_congr (var : Variant) {hrp hrp' : List Byte} (values : List Byte)
    (h : hrp.map lower = hrp'.map lower) : encodeReply var hrp values = encodeReply var hrp' values := by
  have hlen : hrp.length = hrp'.length := by simpa using congrArg List.length h
  simp only [encodeReply, hlen, h]

/-- The case of the human-readable part's letters does not matter to ENCODE and ENCODEB. -/
theorem reply_encoder_congr {i : Instr} {var : Variant} {s u : State} (hi : i = .encode var ∨ i = .encodeb var)
    (hB : u.unitsB = s.unitsB) (hA : u.unitsA.map lower = s.unitsA.map lower) : reply i u = reply i s := by
  have hlenA : u.lenA.toNat = s.lenA.toNat := by
    simpa [u.length_unitsA, s.length_unitsA] using congrArg List.length hA
  have hlenB : u.lenB.toNat = s.lenB.toNat := by rw [← u.length_unitsB, hB, s.length_unitsB]
  have hlegal : lengthsLegal i u ↔ lengthsLegal i s := by rw [lengthsLegal, hlenA, hlenB]
  have hrule : rule i u = rule i s := by
    rcases hi with rfl | rfl
    · simp only [rule, hB, encodeReply_congr var _ hA]
    · simp only [rule, encodebReply, hB, encodeReply_congr var _ hA]
  simp only [reply, hlegal, hrule]

theorem charset_eq_alphabet :
    charset = "qpzry9x8gf2tvdw0s3jn54khce6mua7l".toList.map (fun x => BitVec.ofNat 8 x.toNat) := by decide

/-- Settles O59: the output is an encoded string, and the rule does not see the case of what it is given. -/
theorem encoderOutputIsLowercase : Obligations.EncoderOutputIsLowercase := by
  unfold Obligations.EncoderOutputIsLowercase
  intro i var s t hi hexec h0
  obtain ⟨p, hp, ht⟩ := exec_status_zero hexec h0
  obtain ⟨values, hgroups, rfl⟩ := reply_encoder_ok hi hp
  have houtA : t.outA = Memory.ofUnits (encodedString var (s.unitsA.map lower) values) := by rw [ht]; rfl
  refine ⟨?noCapital, ?symbols, ?caseBlind⟩
  case noCapital =>
    intro k c hk
    rw [houtA, Memory.read_ofUnits] at hk
    exact encodedString_not_upperCode var s.unitsA hgroups c (List.mem_of_getElem? hk)
  case symbols =>
    refine ⟨_, houtA.trans (congrArg _ (encodedString_eq var _ values)), fun c hc => ?_⟩
    rw [← charset_eq_alphabet]
    exact mem_charset_of_mem_symbols (areGroups_append_createChecksum var _ hgroups) hc
  case caseBlind =>
    intro u u' _ hB hA hu
    obtain ⟨hrsp, -, -, hlenOA, -, hout, -⟩ := exec_sameResponse (reply_encoder_congr hi hB hA) hu hexec
    exact ⟨hrsp, hlenOA, hout⟩

end Sys2Proof.Machine
end
